-- ==== Sys2Proof/Word.lean ====
section
/-! DEFINITION. The word type of the LS-8 core: everything the spec treats as bits is one byte (R5, R10, R30). -/

namespace Sys2Proof

/-- A byte: a register, a memory cell, an opcode, an operand, a printed value; unsigned, 0 to 255 (R5).
The `+`, `-` and `*` of this type wrap modulo 256, which is the wrap of R10. -/
abbrev Byte := BitVec 8

end Sys2Proof
end

