-- ==== Sys2Proof/Machine/Flags.lean ====
section
/-! DEFINITION. The one flag: how CMP computes it (R93) and when the two conditional jumps are taken (R113, R114). -/

namespace Sys2Proof.Machine

/-- CMP's flag: 1 if the two bytes are equal, else 0 (R93, R94). -/
def equalFlag (x y : Byte) : Bool := x == y

/-- JEQ jumps when the flag is 1 (R113). -/
def jeqTaken (flag : Bool) : Bool := flag

/-- JNE jumps when the flag is 0 (R114). -/
def jneTaken (flag : Bool) : Bool := !flag

end Sys2Proof.Machine
end

