-- ==== Sys2Proof/Config.lean ====
section
/-! DEFINITION. The implementation parameters of CORE (R4), each at the value this hardware has.
The parameter OPC, the map from mnemonics to opcode bytes, is `Sys2Proof.opc` in Decode.lean. -/

namespace Sys2Proof.Config

/-- MEM_SIZE: 256 cells, addresses 0 to 255 (R4, R30). -/
def memSize : Nat := 256

/-- SP_INDEX: register 7 is the stack pointer (R4, R11). -/
def spIndex : Fin 8 := 7

/-- SP_RESET (R4, R11). -/
def spReset : Byte := 0xF4

/-- GPR_RESET, registers 0 to 6. DESIGN CHOICE of the spec, D2 (log entry 2): unsafe. -/
def gprReset : Byte := 0x00

/-- FLAG_RESET. DESIGN CHOICE of the spec, D3 (log entry 3): unsafe. -/
def flagReset : Bool := false

/-- PC_RESET: the entry point is address 0 (R4, R142). -/
def pcReset : Nat := 0

/-- MEM_RESET: what a cell that nothing has written reads as (R4, R30, R36). -/
def memReset : Byte := 0x00

/-- RUNNING_RESET (R4, R20). -/
def runningReset : Bool := true

/-- LOAD_BASE: the address of the first program byte (R4, R141). -/
def loadBase : Nat := 0

end Sys2Proof.Config
end

