-- ==== Sys2Proof/Syntax.lean ====
section
/-! DEFINITION. The instructions of CORE: the closed set of 14 (R1), their operands (R50, R55, R56) and lengths (R52). -/

namespace Sys2Proof

/-- A register index, 0 to 7 (R10). An operand byte above 7 names no register: the decoder rejects it
(R14, R55, R73), so that the machine never sees one (log entry 18). -/
abbrev RegIx := Fin 8

/-- The 14 mnemonics, in the order of R57. -/
inductive Mnemonic where
  | ldi | prn | hlt | add | sub | mul | cmp | push | pop | call | ret | jmp | jeq | jne
  deriving DecidableEq, Repr

/-- Every mnemonic, once. -/
def Mnemonic.all : List Mnemonic :=
  [.ldi, .prn, .hlt, .add, .sub, .mul, .cmp, .push, .pop, .call, .ret, .jmp, .jeq, .jne]

/-- The number of operand bytes: the format F0, F1 or F2 (R50). -/
def Mnemonic.operandCount : Mnemonic → Nat
  | .hlt | .ret => 0
  | .prn | .push | .pop | .call | .jmp | .jeq | .jne => 1
  | .ldi | .add | .sub | .mul | .cmp => 2

/-- The instructions whose handler may load `pc` with a jump target (R51, R53). -/
def Mnemonic.setsPc : Mnemonic → Bool
  | .call | .ret | .jmp | .jeq | .jne => true
  | .ldi | .prn | .hlt | .add | .sub | .mul | .cmp | .push | .pop => false

/-- Operand b is a register index in these four and an immediate in LDI (R50, R73; conflict C3). -/
def Mnemonic.bIsRegister : Mnemonic → Bool
  | .add | .sub | .mul | .cmp => true
  | .ldi | .prn | .hlt | .push | .pop | .call | .ret | .jmp | .jeq | .jne => false

/-- One constructor per row of the opcode table (R57). Operand a comes first, then operand b, in assembly and in
memory alike (R34, R62). -/
inductive Instr where
  | ldi (a : RegIx) (imm : Byte)
  | prn (a : RegIx)
  | hlt
  | add (a b : RegIx)
  | sub (a b : RegIx)
  | mul (a b : RegIx)
  | cmp (a b : RegIx)
  | push (a : RegIx)
  | pop (a : RegIx)
  | call (a : RegIx)
  | ret
  | jmp (a : RegIx)
  | jeq (a : RegIx)
  | jne (a : RegIx)
  deriving DecidableEq, Repr

/-- The mnemonic of an instruction. -/
def Instr.mnemonic : Instr → Mnemonic
  | .ldi _ _ => .ldi
  | .prn _ => .prn
  | .hlt => .hlt
  | .add _ _ => .add
  | .sub _ _ => .sub
  | .mul _ _ => .mul
  | .cmp _ _ => .cmp
  | .push _ => .push
  | .pop _ => .pop
  | .call _ => .call
  | .ret => .ret
  | .jmp _ => .jmp
  | .jeq _ => .jeq
  | .jne _ => .jne

/-- The length in bytes, 1 to 3 (R50, R52). -/
def Instr.length (i : Instr) : Nat := 1 + i.mnemonic.operandCount

/-- The operations of the ALU: a closed type of four, as R95 asks. -/
inductive AluOp where
  | add | sub | mul | cmp
  deriving DecidableEq, Repr

end Sys2Proof
end

