-- ==== Sys2Proof/Machine/State.lean ====
section
/-! DEFINITION. The whole state of CORE, `(x[0..7], pc, flag, running, fault, M[0..255], out)` (10_state.md), and its reset
value (R27, R140). -/

namespace Sys2Proof.Machine

/-- Which kind of index was out of bounds (R21). -/
inductive BoundsKind where
  | mem | reg
  deriving DecidableEq, Repr

/-- The two fatal conditions of CORE with what they record (R21, R120). -/
inductive FaultRecord where
  /-- UnknownInstruction(opcode, pc) (R121). -/
  | unknownInstruction (opcode : Byte) (pc : Nat)
  /-- OutOfBounds(kind, value) (R122, R123). -/
  | outOfBounds (kind : BoundsKind) (value : Nat)
  deriving DecidableEq, Repr

/-- The machine status, a function of `running` and `fault` (R22). -/
inductive Status where
  | running
  | halted
  | faulted (record : FaultRecord)
  deriving DecidableEq, Repr

/-- Memory: the cells whose byte is not the reset byte, addresses strictly rising; any other cell reads as the reset byte 0
(R30, R36). The canonical form is `Memory.wf` in Ops.lean. -/
abbrev Memory := List Host.Cell

/-- The state of CORE (R10 to R26). -/
structure State where
  /-- The register file x[0] to x[7]; x[7] is the stack pointer (R10, R11). -/
  regs : Vector Byte 8
  /-- The program counter: a natural number that does not wrap (R15, R16; D4, log entry 4). -/
  pc : Nat
  /-- The condition flag, one bit (R18). -/
  flag : Bool
  /-- The run state, cleared by HLT only (R20). -/
  running : Bool
  /-- The fault record (R21; D7, log entry 7). -/
  fault : Option FaultRecord
  /-- The memory M[0] to M[255] (R24, R30). -/
  mem : Memory
  /-- The output sequence, the oldest value first (R25; D11, log entry 11). -/
  out : List Byte
  deriving DecidableEq, Repr

/-- Why the model has no next state: the run is over, and the spec has no step there (R70, R77). Raised by `step` alone and by
no instruction; the fatal conditions of CORE are no members of this type, since the spec gives their effect: a next state with
the record set (R75, R124). Safe: nothing is claimed of a state after the end (log entry 14). -/
inductive Fault where
  /-- Raised by `step` in status Halted: the normal end. Safe. -/
  | halted
  /-- Raised by `step` in status Faulted: the abnormal end, with the record. Safe. -/
  | aborted (record : FaultRecord)
  deriving DecidableEq, Repr

/-- Why the model has no meaning. -/
inductive Refusal where
  /-- Raised by `exec` for an instruction without a meaning yet; no arm does so. Safe. -/
  | notModelled (mnemonic : String)
  deriving DecidableEq, Repr

/-- The state after reset, before the load (R27, R140). Registers 0 to 6 and the flag: the spec's own choice, D2 and D3
(log entries 2 and 3). -/
def State.reset : State where
  regs := (Vector.replicate 8 Config.gprReset).set Config.spIndex Config.spReset
  pc := Config.pcReset
  flag := Config.flagReset
  running := Config.runningReset
  fault := none
  mem := []
  out := []

end Sys2Proof.Machine
end

