-- ==== Sys2Proof/Machine/Ops.lean ====
section
/-! DEFINITION. The named operations over registers, memory, output and status, the stack discipline (R102), and raising a
fatal condition (R124, R125), once for the whole machine. -/

namespace Sys2Proof.Machine

/-! Registers (R10) -/

/-- Read x[r]; no register is hard-wired (R6, R10). -/
def State.reg (s : State) (r : RegIx) : Byte := s.regs[r]

/-- Write x[r] (R6, R10). -/
def State.setReg (s : State) (r : RegIx) (v : Byte) : State := { s with regs := s.regs.set r v }

/-- The stack pointer, a synonym of x[7] (R6, R11). -/
def State.sp (s : State) : Byte := s.reg Config.spIndex

/-! The other fields, each written in one place -/

/-- Write the program counter (R15). -/
def State.setPc (s : State) (n : Nat) : State := { s with pc := n }

/-- Write the condition flag (R18). -/
def State.setFlag (s : State) (b : Bool) : State := { s with flag := b }

/-- Clear the run state (R20). -/
def State.halt (s : State) : State := { s with running := false }

/-- Append a byte to the output (R6, R25, R162). -/
def State.emit (s : State) (v : Byte) : State := { s with out := s.out ++ [v] }

/-- Replace the memory. -/
def State.setMem (s : State) (m : Memory) : State := { s with mem := m }

/-- The status (R22). The combination of a fault with a cleared run state, which no run reaches, counts as Faulted
(DEDUCED, log entry 20). -/
def State.status (s : State) : Status :=
  match s.fault with
  | some f => .faulted f
  | none => if s.running then .running else .halted

/-! Memory (R30, R31) -/

/-- The byte of cell `a`; a cell that is not listed reads as the reset byte (R30, R36). -/
def Memory.read : Memory → Nat → Byte
  | [], _ => Config.memReset
  | (b, w) :: m, a => if a = b then w else Memory.read m a

/-- Write cell `a`, keeping the canonical form: writing the reset byte unlists the cell. -/
def Memory.write : Memory → Nat → Byte → Memory
  | [], a, v => if v = Config.memReset then [] else [(a, v)]
  | (b, w) :: m, a, v =>
    if a < b then (if v = Config.memReset then (b, w) :: m else (a, v) :: (b, w) :: m)
    else if a = b then (if v = Config.memReset then m else (a, v) :: m)
    else (b, w) :: Memory.write m a v

/-- The canonical form: addresses strictly rising and inside memory, no cell listed at the reset byte. -/
abbrev Memory.wf (m : Memory) : Prop :=
  m.Pairwise (fun c d => c.1 < d.1) ∧ ∀ c ∈ m, c.1 < Config.memSize ∧ c.2 ≠ Config.memReset

/-- MemRead(addr, 1), with its bound check; the address is never reduced modulo 256 (R31). -/
def memRead (s : State) (addr : Nat) : Except FaultRecord Byte :=
  if addr < Config.memSize then .ok (s.mem.read addr) else .error (.outOfBounds .mem addr)

/-- MemWrite(addr, 1, v), with its bound check (R31). -/
def memWrite (s : State) (addr : Nat) (v : Byte) : Except FaultRecord State :=
  if addr < Config.memSize then .ok (s.setMem (s.mem.write addr v)) else .error (.outOfBounds .mem addr)

/-! The stack (R45, R102): full, descending, the pointer wraps modulo 256 (D10, log entry 10) -/

/-- `sp <- (sp - 1) mod 256`. -/
def decSp (s : State) : State := s.setReg Config.spIndex (s.sp - 1)

/-- `sp <- (sp + 1) mod 256`. -/
def incSp (s : State) : State := s.setReg Config.spIndex (s.sp + 1)

/-- `push(v)`: decrement, then write at the new stack pointer (R102). -/
def push (s : State) (v : Byte) : Except FaultRecord State := memWrite (decSp s) (decSp s).sp.toNat v

/-- The byte on top of the stack, read at the stack pointer (R102). -/
def readTop (s : State) : Except FaultRecord Byte := memRead s s.sp.toNat

/-- `pop()`: read at the stack pointer, then increment it; the cell keeps its byte (R102). -/
def pop (s : State) : Except FaultRecord (Byte × State) := do
  let v ← readTop s
  return (v, incSp s)

/-! Fatal conditions (R124, R125). There is no return from one: the only way out is reset (R129). -/

/-- Raise a fatal condition: the step changes nothing but the fault record, so `pc` still holds the address of the faulting
instruction, and the status becomes Faulted (R124, R125; D7, log entry 7). -/
def State.raise (s : State) (f : FaultRecord) : State := { s with fault := some f }

/-- The end of an instruction's rule begun in state `s`: its result, or `s` with the record of the condition it raised (R75). -/
def conclude (s : State) : Except FaultRecord State → Host.Outcome State Fault Refusal
  | .ok s' => .next s'
  | .error f => .next (s.raise f)

end Sys2Proof.Machine
end

