-- ==== Sys2Proof/Machine/Operands.lean ====
section
/-! DEFINITION. What the operand forms stand for: a register's value, LDI's immediate (R56), a jump target (R115), CALL's
return address (R110). The operand bytes themselves are checked by the decoder (R73). -/

namespace Sys2Proof.Machine

/-- The value of a register operand (R13, R55). -/
def regOperand (s : State) (r : RegIx) : Byte := s.reg r

/-- The value of LDI's immediate: the byte as it stands, no extension, no scaling (R56). -/
def immOperand (imm : Byte) : Byte := imm

/-- A jump target: the full value of a register, absolute, unchecked (R115). -/
def jumpTarget (s : State) (r : RegIx) : Nat := (s.reg r).toNat

/-- CALL's return address `pc0 + 2`, not reduced; a value above 255 is no byte and raises OutOfBounds
(R44, R110; D5, log entry 5). -/
def returnAddress (pc0 : Nat) : Except FaultRecord Byte :=
  if pc0 + 2 > 255 then .error (.outOfBounds .mem (pc0 + 2)) else .ok (BitVec.ofNat 8 (pc0 + 2))

end Sys2Proof.Machine
end

