-- ==== Sys2Proof/Machine/Alu.lean ====
section
/-! DEFINITION. The ALU (R94) and ADD, SUB, MUL, CMP (42_alu.md). -/

namespace Sys2Proof.Machine

/-- `(A + B) mod 256` (R94). -/
def addBytes (x y : Byte) : Byte := x + y

/-- `(A - B) mod 256`: real subtraction (R91, R94; conflict C5). -/
def subBytes (x y : Byte) : Byte := x - y

/-- `(A * B) mod 256`: the low 8 bits of the product (R92, R94). -/
def mulBytes (x y : Byte) : Byte := x * y

/-- The ALU contract `apply(op, reg_a, reg_b)`: ADD, SUB and MUL write x[a] and no flag, CMP writes the flag and no
register (R94). -/
def aluApply (op : AluOp) (a b : RegIx) (s : State) : State :=
  match op with
  | .add => s.setReg a (addBytes (regOperand s a) (regOperand s b))
  | .sub => s.setReg a (subBytes (regOperand s a) (regOperand s b))
  | .mul => s.setReg a (mulBytes (regOperand s a) (regOperand s b))
  | .cmp => s.setFlag (equalFlag (regOperand s a) (regOperand s b))

/-- ADD a, b (R90). -/
def execAdd (a b : RegIx) (s : State) : Host.Outcome State Fault Refusal :=
  .next ((aluApply .add a b s).setPc (s.pc + 3))

/-- SUB a, b (R91). -/
def execSub (a b : RegIx) (s : State) : Host.Outcome State Fault Refusal :=
  .next ((aluApply .sub a b s).setPc (s.pc + 3))

/-- MUL a, b (R92). -/
def execMul (a b : RegIx) (s : State) : Host.Outcome State Fault Refusal :=
  .next ((aluApply .mul a b s).setPc (s.pc + 3))

/-- CMP a, b (R93; conflict C6). -/
def execCmp (a b : RegIx) (s : State) : Host.Outcome State Fault Refusal :=
  .next ((aluApply .cmp a b s).setPc (s.pc + 3))

end Sys2Proof.Machine
end

