-- ==== Sys2Proof/Machine/Control.lean ====
section
/-! DEFINITION. CALL, RET, JMP, JEQ and JNE (44_control_transfer.md). -/

namespace Sys2Proof.Machine

/-- CALL a: the return address is checked before any write; x[a] is read after the decrement of x[7] (R110; D5 and D9, log
entries 5 and 9). -/
def execCall (a : RegIx) (s : State) : Host.Outcome State Fault Refusal :=
  conclude s do
    let ra ← returnAddress s.pc
    let s1 ← push s ra
    return s1.setPc (jumpTarget s1 a)

/-- RET: `pc` is the byte popped (R111). -/
def execRet (s : State) : Host.Outcome State Fault Refusal :=
  conclude s do
    let (v, s1) ← pop s
    return s1.setPc v.toNat

/-- JMP a (R112). -/
def execJmp (a : RegIx) (s : State) : Host.Outcome State Fault Refusal := .next (s.setPc (jumpTarget s a))

/-- JEQ a: to x[a] if the flag is 1, else on by 2 (R113). -/
def execJeq (a : RegIx) (s : State) : Host.Outcome State Fault Refusal :=
  .next (s.setPc (if jeqTaken s.flag then jumpTarget s a else s.pc + 2))

/-- JNE a: to x[a] if the flag is 0, else on by 2 (R114). -/
def execJne (a : RegIx) (s : State) : Host.Outcome State Fault Refusal :=
  .next (s.setPc (if jneTaken s.flag then jumpTarget s a else s.pc + 2))

end Sys2Proof.Machine
end

