-- ==== Sys2Proof/Machine/LoadPrintHalt.lean ====
section
/-! DEFINITION. LDI, PRN and HLT (41_load_print_halt.md). -/

namespace Sys2Proof.Machine

/-- LDI a, imm: `x[a] <- imm; pc <- pc0 + 3` (R80). -/
def execLdi (a : RegIx) (imm : Byte) (s : State) : Host.Outcome State Fault Refusal :=
  .next ((s.setReg a (immOperand imm)).setPc (s.pc + 3))

/-- PRN a: `emit(x[a]); pc <- pc0 + 2` (R81). -/
def execPrn (a : RegIx) (s : State) : Host.Outcome State Fault Refusal :=
  .next ((s.emit (regOperand s a)).setPc (s.pc + 2))

/-- HLT: `running <- false; pc <- pc0 + 1` (R82). -/
def execHlt (s : State) : Host.Outcome State Fault Refusal := .next (s.halt.setPc (s.pc + 1))

end Sys2Proof.Machine
end

