-- ==== Sys2Proof/Machine/Stack.lean ====
section
/-! DEFINITION. PUSH and POP (43_stack.md). The statements of each rule run in the order written, which matters when the
explicit operand is register 7 (R11; D9, log entry 9). -/

namespace Sys2Proof.Machine

/-- PUSH a: x[a] is read after the decrement, so PUSH R7 stores the decremented stack pointer (R100). -/
def execPush (a : RegIx) (s : State) : Host.Outcome State Fault Refusal :=
  conclude s do
    let s1 ← push s (regOperand (decSp s) a)
    return s1.setPc (s.pc + 2)

/-- POP a: the stack pointer is incremented after the write of x[a], so POP R7 ends with the popped byte plus 1 (R101). -/
def execPop (a : RegIx) (s : State) : Host.Outcome State Fault Refusal :=
  conclude s do
    let v ← readTop s
    return (incSp (s.setReg a v)).setPc (s.pc + 2)

end Sys2Proof.Machine
end

