-- ==== Sys2Proof/WellFormed.lean ====
section
/-! DEFINITION. What must be checked of what the machine is given: the parameter OPC (D1, R52, R53, R58), the place of an
instruction (R16, R73) and a program image (R161). The operands of an `Instr` need no check: a register operand is a `RegIx`,
so an instruction with a register above 7 cannot be written down, and the decoder rejects the byte (R73). -/

namespace Sys2Proof

/-- The field NOPS of an opcode byte, bits 7:6: `b div 64` (R5, R51). -/
def nopsField (b : Byte) : Nat := b.toNat / 64

/-- The field SETS_PC of an opcode byte, bit 4: `(b div 16) mod 2` (R5, R51). -/
def setsPcField (b : Byte) : Bool := b.toNat / 16 % 2 == 1

/-- The parameter OPC: an opcode byte for each mnemonic (R4; D1). -/
abbrev OpcodeMap := Mnemonic → Byte

/-- The opcode of `m` codes its operand count in bits 7:6 (R52). -/
abbrev OpcodeMap.NopsOk (o : OpcodeMap) (m : Mnemonic) : Prop := nopsField (o m) = m.operandCount

/-- The opcode of `m` has bit 4 set exactly if `m` is CALL, RET, JMP, JEQ or JNE (R53). -/
abbrev OpcodeMap.SetsPcOk (o : OpcodeMap) (m : Mnemonic) : Prop := setsPcField (o m) = m.setsPc

/-- The opcodes are pairwise different (R58; D1: the map is injective). -/
abbrev OpcodeMap.Distinct (o : OpcodeMap) : Prop := Mnemonic.all.Pairwise (fun m n => o m ≠ o n)

/-- What D1 asks of the parameter OPC. -/
abbrev OpcodeMap.WellFormed (o : OpcodeMap) : Prop :=
  o.Distinct ∧ ∀ m ∈ Mnemonic.all, o.NopsOk m ∧ o.SetsPcOk m

/-- All bytes of the instruction lie at addresses up to 255 when its opcode stands at `pc` (R16, R35). -/
abbrev Instr.FitsAt (i : Instr) (pc : Nat) : Prop := pc + i.length ≤ Config.memSize

/-- A program image has at most 256 bytes (R141, R160, R161). -/
abbrev ImageWellFormed (image : List Byte) : Prop := image.length ≤ Config.memSize

end Sys2Proof
end

