-- ==== Sys2Proof/Decode.lean ====
section
/-! DEFINITION. The opcode map (R57), the decoder (R58, R72, R73), the encoder (R50, R57) and the assembly text (R62). -/

namespace Sys2Proof

/-- The parameter OPC at its default (R4, R57). PRESUMED by the spec from general knowledge, D1 (log entry 1): unsafe. -/
def opc : OpcodeMap
  | .ldi => 0x82
  | .prn => 0x47
  | .hlt => 0x01
  | .add => 0xA0
  | .sub => 0xA1
  | .mul => 0xA2
  | .cmp => 0xA7
  | .push => 0x45
  | .pop => 0x46
  | .call => 0x50
  | .ret => 0x11
  | .jmp => 0x54
  | .jeq => 0x55
  | .jne => 0x56

/-- Why bytes are no instruction. -/
inductive DecodeError where
  /-- Byte `k` of the instruction is not there (0: the opcode, 1: operand a, 2: operand b). -/
  | truncated (k : Nat)
  /-- The opcode byte is none of the 14 (R59). -/
  | unknownOpcode (op : Byte)
  /-- A register operand byte above 7 (R55). -/
  | badRegister (v : Byte)
  deriving DecidableEq, Repr

/-- The mnemonic whose opcode equals the whole byte (R58, R72). -/
def lookup (o : OpcodeMap) (op : Byte) : Option Mnemonic := Mnemonic.all.find? (fun m => o m == op)

/-- A register operand: the whole byte, legal from 0 to 7, never masked (R14, R55). -/
def regIndex (v : Byte) : Except DecodeError RegIx :=
  if h : v.toNat < 8 then .ok ⟨v.toNat, h⟩ else .error (.badRegister v)

/-- Format F1: operand a is a register (R50). -/
def decodeReg (mk : RegIx → Instr) : List Byte → Except DecodeError (Instr × List Byte)
  | [] => .error (.truncated 1)
  | a :: rest => do
    let ra ← regIndex a
    return (mk ra, rest)

/-- Format F2, two registers: both bytes are fetched before either is checked, a is checked first (R73, R128; D6). -/
def decodeRegReg (mk : RegIx → RegIx → Instr) : List Byte → Except DecodeError (Instr × List Byte)
  | [] => .error (.truncated 1)
  | [_] => .error (.truncated 2)
  | a :: b :: rest => do
    let ra ← regIndex a
    let rb ← regIndex b
    return (mk ra rb, rest)

/-- Format F2, a register and an immediate: the immediate is used as it stands and never checked (R56, R73). -/
def decodeRegImm (mk : RegIx → Byte → Instr) : List Byte → Except DecodeError (Instr × List Byte)
  | [] => .error (.truncated 1)
  | [_] => .error (.truncated 2)
  | a :: b :: rest => do
    let ra ← regIndex a
    return (mk ra b, rest)

/-- Operand fetch and operand check of a known instruction, on the bytes after its opcode (R73). -/
def decodeOperands : Mnemonic → List Byte → Except DecodeError (Instr × List Byte)
  | .ldi, rest => decodeRegImm .ldi rest
  | .prn, rest => decodeReg .prn rest
  | .hlt, rest => .ok (.hlt, rest)
  | .add, rest => decodeRegReg .add rest
  | .sub, rest => decodeRegReg .sub rest
  | .mul, rest => decodeRegReg .mul rest
  | .cmp, rest => decodeRegReg .cmp rest
  | .push, rest => decodeReg .push rest
  | .pop, rest => decodeReg .pop rest
  | .call, rest => decodeReg .call rest
  | .ret, rest => .ok (.ret, rest)
  | .jmp, rest => decodeReg .jmp rest
  | .jeq, rest => decodeReg .jeq rest
  | .jne, rest => decodeReg .jne rest

/-- The decoder for any value of the parameter OPC: total on any bytes; an unknown opcode is rejected before any operand byte
is looked at (R72). -/
def decodeWith (o : OpcodeMap) : List Byte → Except DecodeError (Instr × List Byte)
  | [] => .error (.truncated 0)
  | op :: rest =>
    match lookup o op with
    | none => .error (.unknownOpcode op)
    | some m => decodeOperands m rest

/-- The decoder of this hardware. -/
def decode : List Byte → Except DecodeError (Instr × List Byte) := decodeWith opc

/-- The operand byte that names a register (R55). -/
def regByte (r : RegIx) : Byte := BitVec.ofNat 8 r.val

/-- The operand bytes, operand a first (R34, R50). -/
def Instr.operandBytes : Instr → List Byte
  | .ldi a imm => [regByte a, imm]
  | .prn a => [regByte a]
  | .hlt => []
  | .add a b => [regByte a, regByte b]
  | .sub a b => [regByte a, regByte b]
  | .mul a b => [regByte a, regByte b]
  | .cmp a b => [regByte a, regByte b]
  | .push a => [regByte a]
  | .pop a => [regByte a]
  | .call a => [regByte a]
  | .ret => []
  | .jmp a => [regByte a]
  | .jeq a => [regByte a]
  | .jne a => [regByte a]

/-- The encoder for any value of the parameter OPC: the opcode at the lowest address, then the operands (R34, R50). -/
def encodeWith (o : OpcodeMap) (i : Instr) : List Byte := o i.mnemonic :: i.operandBytes

/-- The encoder of this hardware. -/
def encode : Instr → List Byte := encodeWith opc

/-- The first three bytes of an instruction whose bits are `w`, bit 0 the least significant bit of the first byte,
the bits from `nbits` on zero. -/
def wordBytes (nbits w : Nat) : List Byte :=
  let v := w % 2 ^ nbits
  [BitVec.ofNat 8 v, BitVec.ofNat 8 (v / 2 ^ 8), BitVec.ofNat 8 (v / 2 ^ 16)]

/-- The instruction the decoder reads from an instruction whose bits are `w`. -/
def decodeTableWord (nbits w : Nat) : Option Instr :=
  match decode (wordBytes nbits w) with
  | .ok (i, _) => some i
  | .error _ => none

/-- A mnemonic in capitals (R62). -/
def Mnemonic.text : Mnemonic → String
  | .ldi => "LDI"
  | .prn => "PRN"
  | .hlt => "HLT"
  | .add => "ADD"
  | .sub => "SUB"
  | .mul => "MUL"
  | .cmp => "CMP"
  | .push => "PUSH"
  | .pop => "POP"
  | .call => "CALL"
  | .ret => "RET"
  | .jmp => "JMP"
  | .jeq => "JEQ"
  | .jne => "JNE"

/-- A register in assembly: R and the decimal index (R62). -/
def regText (r : RegIx) : String := "R" ++ toString r.val

/-- The operands in assembly, registers by name and the immediate in decimal, operand a first (R62). -/
def Instr.operandTexts : Instr → List String
  | .ldi a imm => [regText a, toString imm.toNat]
  | .prn a => [regText a]
  | .hlt => []
  | .add a b => [regText a, regText b]
  | .sub a b => [regText a, regText b]
  | .mul a b => [regText a, regText b]
  | .cmp a b => [regText a, regText b]
  | .push a => [regText a]
  | .pop a => [regText a]
  | .call a => [regText a]
  | .ret => []
  | .jmp a => [regText a]
  | .jeq a => [regText a]
  | .jne a => [regText a]

/-- The assembly line of an instruction, as the source writes it, for example LDI R0,8 (R62). -/
def Instr.asm (i : Instr) : String :=
  match i.operandTexts with
  | [] => i.mnemonic.text
  | first :: rest => rest.foldl (fun line t => line ++ "," ++ t) (i.mnemonic.text ++ " " ++ first)

end Sys2Proof
end

