-- ==== Sys2Proof/Machine/Fetch.lean ====
section
/-! DEFINITION. Fetching and decoding the instruction at `pc` (R71 to R73), and placing an instruction there. -/

namespace Sys2Proof.Machine

/-- The bytes at `pc`, `pc + 1`, `pc + 2` that exist. Reading a byte has no side effect (R36), so reading more of them than
the instruction has changes nothing (DEDUCED, log entry 15). -/
def fetchBytes (s : State) : List Byte :=
  ([s.pc, s.pc + 1, s.pc + 2].filter (fun a => a < Config.memSize)).map s.mem.read

/-- The condition that a failed decode of the bytes at `pc0` raises (R71, R72, R73): a missing byte `k` is the fetch at
`pc0 + k`. -/
def faultOf (pc0 : Nat) : DecodeError → FaultRecord
  | .truncated k => .outOfBounds .mem (pc0 + k)
  | .unknownOpcode op => .unknownInstruction op pc0
  | .badRegister v => .outOfBounds .reg v.toNat

/-- Fetch, decode, operand fetch and operand check, in this order (R70 to R73, R128). Every fetch reads the memory as it
stands, so a stored byte is seen by the next fetch (R43; D20, log entry 21). -/
def fetchDecode (s : State) : Except FaultRecord Instr :=
  match decode (fetchBytes s) with
  | .ok (i, _) => .ok i
  | .error e => .error (faultOf s.pc e)

/-- Store bytes at rising addresses, leaving out those beyond address 255. -/
def storeBytes : List Byte → Nat → Memory → Memory
  | [], _, m => m
  | b :: bs, addr, m => storeBytes bs (addr + 1) (if addr < Config.memSize then m.write addr b else m)

/-- `s` with the instruction whose bits are `w` at `pc`: where the loader would have put it (R141, log entry 16). -/
def placeWord (s : State) (nbits w : Nat) : State := s.setMem (storeBytes (wordBytes nbits w) s.pc s.mem)

end Sys2Proof.Machine
end

