-- ==== Sys2Proof/Machine/Step.lean ====
section
/-! DEFINITION. The step (R70, R75) and the placing of an instruction where the step fetches. -/

namespace Sys2Proof.Machine

/-- One pass of the fetch-decode-execute cycle (R7, R70, R75). A step is taken only in status Running; a raised condition is a
next state with only the fault record set (R124). In Halted and in Faulted there is no step (R70, log entry 14). -/
def step (s : State) : Host.Outcome State Fault Refusal :=
  match s.status with
  | .halted => .fault .halted
  | .faulted f => .fault (.aborted f)
  | .running =>
    match fetchDecode s with
    | .error f => .next (s.raise f)
    | .ok i => exec i s

/-- `s` with the instruction whose bits are `w` stored where `step` fetches its next instruction. -/
def State.withFetchWord (s : State) (nbits w : Nat) : State := placeWord s nbits w

end Sys2Proof.Machine
end

