-- ==== Sys2Proof/Machine/Reference.lean ====
section
/-! DEFINITION. The spec's pseudo-code of the whole step, R75, line by line, to be held against `step`. It takes the operand
count from bits 7:6 of the opcode (R52, R72), where the decoder takes it from the table. -/

namespace Sys2Proof.Machine

/-- The register that an operand byte already checked to be at most 7 names. -/
def checkedReg (v : Byte) : RegIx := Fin.ofNat 8 v.toNat

/-- The instruction of a mnemonic and its fetched and checked operand bytes. -/
def buildInstr (m : Mnemonic) (a b : Byte) : Instr :=
  match m with
  | .ldi => .ldi (checkedReg a) b
  | .prn => .prn (checkedReg a)
  | .hlt => .hlt
  | .add => .add (checkedReg a) (checkedReg b)
  | .sub => .sub (checkedReg a) (checkedReg b)
  | .mul => .mul (checkedReg a) (checkedReg b)
  | .cmp => .cmp (checkedReg a) (checkedReg b)
  | .push => .push (checkedReg a)
  | .pop => .pop (checkedReg a)
  | .call => .call (checkedReg a)
  | .ret => .ret
  | .jmp => .jmp (checkedReg a)
  | .jeq => .jeq (checkedReg a)
  | .jne => .jne (checkedReg a)

/-- R75, for a state with status Running. -/
def referenceStep (s : State) : Host.Outcome State Fault Refusal :=
  let pc0 := s.pc
  if pc0 > 255 then .next (s.raise (.outOfBounds .mem pc0))
  else
    let op := s.mem.read pc0
    match lookup opc op with
    | none => .next (s.raise (.unknownInstruction op pc0))
    | some m =>
      let n := nopsField op
      let a := s.mem.read (pc0 + 1)
      let b := s.mem.read (pc0 + 2)
      if n ≥ 1 ∧ pc0 + 1 > 255 then .next (s.raise (.outOfBounds .mem (pc0 + 1)))
      else if n = 2 ∧ pc0 + 2 > 255 then .next (s.raise (.outOfBounds .mem (pc0 + 2)))
      else if n ≥ 1 ∧ a.toNat > 7 then .next (s.raise (.outOfBounds .reg a.toNat))
      else if m.bIsRegister = true ∧ b.toNat > 7 then .next (s.raise (.outOfBounds .reg b.toNat))
      else exec (buildInstr m a b) s

end Sys2Proof.Machine
end

