-- ==== Sys2Proof/Machine/Interface.lean ====
section
/-! DEFINITION. The interfaces of CORE to its host: program load (R141, R160, R161), the run (R76, R77), output (R162),
status and diagnostic (R78, R126, R163). Reset is `State.reset` (R140, R164). -/

namespace Sys2Proof.Machine

/-! Load (R160) -/

/-- Write bytes at rising addresses, through the same write contract as MemWrite. -/
def loadFrom : List Byte → Nat → State → Except FaultRecord State
  | [], _, s => .ok s
  | b :: bs, addr, s => do
    let s1 ← memWrite s addr b
    loadFrom bs (addr + 1) s1

/-- The load of a program image from address 0. An image of more than 256 bytes fails at the write of its byte 256: a failure
of the load, not of a run, which leaves no state to step from (R161; D13, log entry 13). The bytes are not looked at (R141). -/
def load (image : List Byte) (s : State) : Except FaultRecord State := loadFrom image Config.loadBase s

/-- Reset, then load: the state a run starts from, a function of the image alone (R141, R164). -/
def boot (image : List Byte) : Except FaultRecord State := load image State.reset

/-! Run (R76, R77) -/

/-- At most `k` steps, one after another with nothing in between, ending where no step is left. -/
def runFor : Nat → State → State
  | 0, s => s
  | k + 1, s =>
    match step s with
    | .next t => runFor k t
    | .fault _ => s
    | .refused _ => s

/-! Output (R162): the rendering is the host's; ASCII digits and U+000A are D11's choice (log entry 11) -/

/-- The decimal digit of a number below 10. -/
def digitChar (n : Nat) : Char := Char.ofNat (48 + n)

/-- A value in unsigned decimal, no sign, no leading zeros, no padding. -/
def decimal (v : Byte) : List Char :=
  let n := v.toNat
  if n < 10 then [digitChar n]
  else if n < 100 then [digitChar (n / 10), digitChar (n % 10)]
  else [digitChar (n / 100), digitChar (n / 10 % 10), digitChar (n % 10)]

/-- One line per value: its decimal and one newline. -/
def renderLine (v : Byte) : List Char := decimal v ++ ['\n']

/-- The text of the output sequence, in execution order. -/
def render (out : List Byte) : List Char := out.flatMap renderLine

/-! Status and diagnostic (R163) -/

/-- The cause code of a status output (R126; D12, log entry 12). -/
def causeCode : Option FaultRecord → Nat
  | none => 0
  | some (.unknownInstruction _ _) => 1
  | some (.outOfBounds .mem _) => 2
  | some (.outOfBounds .reg _) => 3

/-- The information value beside the cause code: the opcode, the address or the index (R126). -/
def causeInfo : Option FaultRecord → Nat
  | none => 0
  | some (.unknownInstruction op _) => op.toNat
  | some (.outOfBounds _ v) => v

/-- What is observable of a run: the output so far and the status with its fault record (R78). -/
structure Observation where
  out : List Byte
  status : Status
  deriving DecidableEq, Repr

/-- What the host sees of a state (R78, R163). -/
def observe (s : State) : Observation := { out := s.out, status := s.status }

end Sys2Proof.Machine
end

