-- ==== Sys2Proof/Safety.lean ====
section
/-! DEFINITION. What claims are stated in: the invariant of every state, what counts as a safe run, and the frame predicates. -/

namespace Sys2Proof.Machine

/-- What a fault record of a reachable state says (R21, R32, R122, R123): an unknown opcode is the byte at `pc`, which is
none of the 14; an address is 256; a register index is 8 to 255. -/
def FaultRecord.Legal (s : State) : FaultRecord → Prop
  | .unknownInstruction op p => p = s.pc ∧ p ≤ 255 ∧ op = s.mem.read p ∧ ∀ m, opc m ≠ op
  | .outOfBounds .mem v => v = 256
  | .outOfBounds .reg v => 8 ≤ v ∧ v ≤ 255

/-- The invariant of CORE. -/
structure State.Inv (s : State) : Prop where
  /-- The memory is in canonical form (R30). -/
  memWf : s.mem.wf
  /-- The program counter is 0 to 256 (R16, conflict C13). -/
  pcRange : s.pc ≤ 256
  /-- In status Faulted `running` keeps the value true, since only HLT clears it (R22). -/
  faultedRuns : s.fault ≠ none → s.running = true
  /-- The fault record is one that CORE can raise. -/
  faultLegal : ∀ f, s.fault = some f → f.Legal s

/-- `t` is reached from `s` by steps (R76). -/
inductive Reaches : State → State → Prop where
  | refl (s : State) : Reaches s s
  | tail {s t u : State} : Reaches s t → step t = .next u → Reaches s u

/-- A safe run: no fatal condition is ever raised (the source's well-formed program, R8). -/
def NeverFaults (s : State) : Prop := ∀ t, Reaches s t → t.fault = none

/-- The only successful end of a run (R22, R77). -/
def EndsHalted (s : State) : Prop := ∃ t, Reaches s t ∧ t.status = .halted

/-- The image can be loaded and its run raises nothing. -/
def ImageSafe (image : List Byte) : Prop := ∃ s, boot image = .ok s ∧ NeverFaults s

/-! Frames -/

/-- Every byte of memory reads as before. -/
def SameMem (s t : State) : Prop := ∀ addr, t.mem.read addr = s.mem.read addr

/-- Every byte of memory outside cell `p` reads as before. -/
def SameMemExcept (p : Nat) (s t : State) : Prop := ∀ addr, addr ≠ p → t.mem.read addr = s.mem.read addr

/-- Every register outside the list is unchanged. -/
def SameRegsExcept (dests : List RegIx) (s t : State) : Prop := ∀ r, r ∉ dests → t.reg r = s.reg r

/-- The run state, the fault record and the output are unchanged. -/
def SameControl (s t : State) : Prop := t.running = s.running ∧ t.fault = s.fault ∧ t.out = s.out

/-- The byte of the stack cell a push from `s` writes: the stack pointer minus 1 modulo 256 (R45, R102). -/
def pushAddr (s : State) : Nat := (s.sp - 1).toNat

/-- Only the fault record of `t` differs from `s`, and it is `f` (R124). -/
def OnlyFaultSet (f : FaultRecord) (s t : State) : Prop :=
  t.fault = some f ∧ t.pc = s.pc ∧ t.flag = s.flag ∧ t.running = s.running ∧ t.out = s.out ∧
  SameRegsExcept [] s t ∧ t.mem = s.mem

/-- `step` raises `f` at `s`: it answers a next state in which only the record is set (R75, R124). -/
def StepRaises (s : State) (f : FaultRecord) : Prop := ∃ t, step s = .next t ∧ OnlyFaultSet f s t

/-- The bytes `bs` stand in memory from `addr` on. -/
def BytesAt (s : State) (addr : Nat) (bs : List Byte) : Prop :=
  ∀ k (h : k < bs.length), s.mem.read (addr + k) = bs[k]

/-- The faults the step raises for an instruction of format F1 before its rule is reached: the operand byte lies beyond
address 255, or it names no register (R73). -/
def FetchFaultsF1 (m : Mnemonic) : Prop :=
  ∀ s : State, s.status = .running → s.mem.read s.pc = opc m →
    (s.pc = 255 → StepRaises s (.outOfBounds .mem 256)) ∧
    (s.pc ≤ 254 → 8 ≤ (s.mem.read (s.pc + 1)).toNat →
      StepRaises s (.outOfBounds .reg (s.mem.read (s.pc + 1)).toNat))

/-- The faults the step raises for LDI before its rule is reached; the immediate is never checked (R73, R80). -/
def FetchFaultsRegImm (m : Mnemonic) : Prop :=
  ∀ s : State, s.status = .running → s.mem.read s.pc = opc m →
    (s.pc = 254 ∨ s.pc = 255 → StepRaises s (.outOfBounds .mem 256)) ∧
    (s.pc ≤ 253 → 8 ≤ (s.mem.read (s.pc + 1)).toNat →
      StepRaises s (.outOfBounds .reg (s.mem.read (s.pc + 1)).toNat))

/-- The faults the step raises for an ALU instruction before its rule is reached (R73; 42_alu.md). -/
def FetchFaultsRegReg (m : Mnemonic) : Prop :=
  FetchFaultsRegImm m ∧
  ∀ s : State, s.status = .running → s.mem.read s.pc = opc m → s.pc ≤ 253 →
    (s.mem.read (s.pc + 1)).toNat < 8 → 8 ≤ (s.mem.read (s.pc + 2)).toNat →
      StepRaises s (.outOfBounds .reg (s.mem.read (s.pc + 2)).toNat)

/-- The registers an instruction writes (R13). -/
def writtenRegs : Instr → List RegIx
  | .ldi a _ => [a]
  | .add a _ => [a]
  | .sub a _ => [a]
  | .mul a _ => [a]
  | .pop a => [a, Config.spIndex]
  | .push _ => [Config.spIndex]
  | .call _ => [Config.spIndex]
  | .ret => [Config.spIndex]
  | .prn _ => []
  | .hlt => []
  | .cmp _ _ => []
  | .jmp _ => []
  | .jeq _ => []
  | .jne _ => []

/-- The registers an instruction reads in a state with this flag; JEQ and JNE read theirs only when they jump (R13). -/
def readRegs (flag : Bool) : Instr → List RegIx
  | .ldi _ _ => []
  | .prn a => [a]
  | .hlt => []
  | .add a b => [a, b]
  | .sub a b => [a, b]
  | .mul a b => [a, b]
  | .cmp a b => [a, b]
  | .push a => [Config.spIndex, a]
  | .pop _ => [Config.spIndex]
  | .call a => [Config.spIndex, a]
  | .ret => [Config.spIndex]
  | .jmp a => [a]
  | .jeq a => if flag then [a] else []
  | .jne a => if flag then [] else [a]

end Sys2Proof.Machine
end

