-- ==== Sys2Proof/Certificates/Slice0/Obligations.lean ====
section
/-! DEFINITION. The statements for the provers. A docstring names the rules a statement formalises; where a clause rests on a
decision the spec marks as its own (D<n> of 92_eei_decisions.md), it says so and names the log entry. -/

open Sys2Proof Sys2Proof.Machine

/-! Reset and load -/

/-- What reset leaves (R27, R140). Registers 0 to 6 and the flag rest on D2 and D3 (log entries 2 and 3), the empty record
and output on D7 and D11 (entries 7 and 11). -/
def Obligations.ResetLeavesTheSpecsValues : Prop :=
  (∀ r : RegIx, r ≠ 7 → State.reset.reg r = 0) ∧ State.reset.sp = 0xF4 ∧ State.reset.pc = 0 ∧
  State.reset.flag = false ∧ State.reset.running = true ∧ State.reset.fault = none ∧
  (∀ addr, State.reset.mem.read addr = 0) ∧ State.reset.out = [] ∧ State.reset.status = .running

/-- The invariant holds at reset. -/
def Obligations.ResetHasInvariant : Prop := State.reset.Inv

/-- The load (R141): an image of n bytes, n at most 256, is written to cells 0 to n - 1, the other cells keep what they held,
and nothing but memory is written, whatever the bytes are; after reset the other cells are 0. -/
def Obligations.LoadWritesTheImageOnly : Prop :=
  (∀ (image : List Byte) (s : State), s.mem.wf → image.length ≤ 256 → ∃ t, load image s = .ok t ∧
    (∀ k (h : k < image.length), t.mem.read k = image[k]) ∧
    (∀ addr, image.length ≤ addr → t.mem.read addr = s.mem.read addr) ∧
    SameRegsExcept [] s t ∧ t.pc = s.pc ∧ t.flag = s.flag ∧ SameControl s t) ∧
  (∀ image : List Byte, image.length ≤ 256 → ∃ t, boot image = .ok t ∧
    ∀ addr, image.length ≤ addr → t.mem.read addr = 0)

/-- An image of more than 256 bytes cannot be loaded: the write of byte 256 fails and there is no state to step from
(R161; D13, log entry 13). -/
def Obligations.LongImageFailsToLoad : Prop :=
  ∀ (image : List Byte) (s : State), 256 < image.length → load image s = .error (.outOfBounds .mem 256)

/-- A run starts in the invariant, whatever the image (R140, R141). -/
def Obligations.BootHasInvariant : Prop := ∀ (image : List Byte) (s : State), boot image = .ok s → s.Inv

/-- An empty image raises UnknownInstruction(0x00, 0) on the first step (R142). -/
def Obligations.EmptyImageFaultsAtOnce : Prop :=
  ∃ s, boot [] = .ok s ∧ StepRaises s (.unknownInstruction 0x00 0)

/-! The state -/

/-- The register file (R10): each of the 8 registers takes any byte and gives it back, none is hard-wired; writing one changes
no other and no memory, writing memory changes no register. The stack pointer's increment and decrement wrap modulo 256, the
spec's own choice D10 (R45, log entry 10). -/
def Obligations.RegistersHoldAnyByteWithoutAliasing : Prop :=
  (∀ (s : State) (r : RegIx) (v : Byte), (s.setReg r v).reg r = v ∧ SameRegsExcept [r] s (s.setReg r v) ∧
    SameMem s (s.setReg r v)) ∧
  (∀ (s t : State) (addr : Nat) (v : Byte), memWrite s addr v = .ok t → SameRegsExcept [] s t) ∧
  (∀ (s : State) (r : RegIx), (s.reg r).toNat ≤ 255) ∧
  (∀ s : State, (incSp s).sp.toNat = (s.sp.toNat + 1) % 256 ∧ (decSp s).sp.toNat = (s.sp.toNat + 255) % 256)

/-- The two access primitives (R31): inside 0 to 255 a read returns the cell and a write changes it and no other; outside,
both raise OutOfBounds(mem, addr) with the address unreduced. -/
def Obligations.MemoryAccessesAreBoundsChecked : Prop :=
  ∀ (s : State) (addr : Nat) (v : Byte), s.mem.wf →
    (addr ≤ 255 → memRead s addr = .ok (s.mem.read addr) ∧
      ∃ t, memWrite s addr v = .ok t ∧ t.mem.read addr = v ∧ SameMemExcept addr s t ∧
        SameRegsExcept [] s t ∧ t.pc = s.pc ∧ t.flag = s.flag ∧ SameControl s t) ∧
    (255 < addr → memRead s addr = .error (.outOfBounds .mem addr) ∧
      memWrite s addr v = .error (.outOfBounds .mem addr))

/-- Memories in canonical form that read alike are equal data, so memory is a function from address to byte (R30, R40). -/
def Obligations.CanonicalMemoriesAreExtensional : Prop :=
  ∀ m n : Memory, m.wf → n.wf → (∀ addr, addr ≤ 255 → m.read addr = n.read addr) → m = n

/-! Encoding -/

/-- Decode and encode agree for every value of the parameter OPC that D1 admits, with every operand at every value, whatever
bytes follow; the default OPC is such a value (R50, R57; D1, log entry 1). -/
def Obligations.DecodeInvertsEncodeForAnyOpcodeMap : Prop :=
  opc.WellFormed ∧
  ∀ o : OpcodeMap, o.WellFormed → ∀ (i : Instr) (rest : List Byte),
    decodeWith o (encodeWith o i ++ rest) = .ok (i, rest)

/-- Each instruction has one encoding: decoded bytes are the instruction's encoding and the rest (R50, R55, R56). -/
def Obligations.EncodeInvertsDecode : Prop :=
  ∀ (o : OpcodeMap) (bytes rest : List Byte) (i : Instr),
    decodeWith o bytes = .ok (i, rest) → encodeWith o i ++ rest = bytes

/-- NOPS and SETS_PC (R52, R53): bits 7:6 of each opcode are its operand count, an instruction has one byte more than that,
which is what a handler of the class without bit 4 adds to `pc`; bit 4 is set exactly for CALL, RET, JMP, JEQ and JNE, and JEQ
and JNE have it although they add 2 when not taken. -/
def Obligations.OpcodeFieldsGiveLengthAndBranchClass : Prop :=
  (∀ i : Instr, (opc i.mnemonic).toNat / 64 = i.operandBytes.length ∧
    (encode i).length = 1 + (opc i.mnemonic).toNat / 64) ∧
  (∀ m : Mnemonic, (opc m).toNat / 16 % 2 = 1 ↔ m ∈ [Mnemonic.call, .ret, .jmp, .jeq, .jne]) ∧
  (∀ (i : Instr) (s : State), (opc i.mnemonic).toNat / 16 % 2 = 0 →
    ∃ t, exec i s = .next t ∧ t.pc = s.pc + (1 + (opc i.mnemonic).toNat / 64)) ∧
  (∀ (a : RegIx) (s : State), (s.flag = false → ∃ t, exec (.jeq a) s = .next t ∧ t.pc = s.pc + 2) ∧
    (s.flag = true → ∃ t, exec (.jne a) s = .next t ∧ t.pc = s.pc + 2))

/-- Decoding matches the whole opcode byte (R58): the 14 values are pairwise different, bytes decode to an instruction only if
the first byte equals its opcode in all 8 bits, and a first byte that equals no opcode decodes to nothing. -/
def Obligations.DecodingMatchesTheWholeOpcodeByte : Prop :=
  (∀ m n : Mnemonic, opc m = opc n → m = n) ∧
  (∀ (op : Byte) (rest tail : List Byte) (i : Instr), decode (op :: rest) = .ok (i, tail) → opc i.mnemonic = op) ∧
  (∀ (op : Byte) (rest : List Byte), (∀ m, opc m ≠ op) → decode (op :: rest) = .error (.unknownOpcode op))

/-- Words written out from the table of R57, one for each instruction, decode to it (opcode bytes: D1, log entry 1). -/
def Obligations.TableWordsDecode : Prop :=
  decode [0b10000010, 0, 8] = .ok (.ldi 0 8, []) ∧ decode [0b01000111, 7] = .ok (.prn 7, []) ∧
  decode [0b00000001] = .ok (.hlt, []) ∧ decode [0b10100000, 0, 1] = .ok (.add 0 1, []) ∧
  decode [0b10100001, 1, 2] = .ok (.sub 1 2, []) ∧ decode [0b10100010, 2, 2] = .ok (.mul 2 2, []) ∧
  decode [0b10100111, 1, 3] = .ok (.cmp 1 3, []) ∧ decode [0b01000101, 7] = .ok (.push 7, []) ∧
  decode [0b01000110, 3] = .ok (.pop 3, []) ∧ decode [0b01010000, 1] = .ok (.call 1, []) ∧
  decode [0b00010001] = .ok (.ret, []) ∧ decode [0b01010100, 4] = .ok (.jmp 4, []) ∧
  decode [0b01010101, 2] = .ok (.jeq 2, []) ∧ decode [0b01010110, 4] = .ok (.jne 4, [])

/-! The step -/

/-- A step runs the decoded instruction: if the status is Running and the bytes at `pc` decode to `i`, the step is `exec i`,
with nothing around it; the dispatcher writes no state itself (R74). -/
def Obligations.StepRunsTheDecodedInstruction : Prop :=
  ∀ (s : State) (i : Instr) (rest : List Byte), s.status = .running → decode (fetchBytes s) = .ok (i, rest) →
    step s = exec i s

/-- The same from memory: where the encoding of `i` stands at `pc`, opcode first and operand a before operand b, and all its
bytes lie at addresses up to 255, the step is `exec i` (R34, R35, R73); the place needs no alignment. -/
def Obligations.StepRunsTheEncodedInstruction : Prop :=
  ∀ (s : State) (i : Instr), s.status = .running → s.pc + (encode i).length ≤ 256 → BytesAt s s.pc (encode i) →
    step s = exec i s

/-- The step is the spec's pseudo-code of it, for every state with status Running (R75). It rests on the spec's own choices: the
opcode values D1 (log entry 1), the `pc` that does not wrap D4 (entry 4), CALL's return address D5 (entry 5), the order of the
checks D6 (entry 6), the state after a fault D7 (entry 7) and the register check at decode D8 (entry 8). -/
def Obligations.StepIsTheSpecsPseudoCode : Prop := ∀ s : State, s.status = .running → step s = referenceStep s

/-- A step is taken in status Running only, and there always (R70, R77; that none exists in Halted and Faulted is the spec's own
choice D14, and the named end the model gives there is its own, log entry 14): in Running the step answers a next state, and the
first phase that raises a fault ends it: nothing is executed (D7, log entry 7). -/
def Obligations.StepsExistExactlyWhileRunning : Prop :=
  (∀ s : State, s.status = .running ↔ ∃ t, step s = .next t) ∧
  (∀ s : State, s.status = .halted → step s = .fault .halted) ∧
  (∀ (s : State) (f : FaultRecord), s.status = .faulted f → step s = .fault (.aborted f)) ∧
  (∀ (s : State) (f : FaultRecord), s.status = .running → fetchDecode s = .error f → StepRaises s f)

/-- The invariant of every step (R16, R21, R22, R30, R32): memory stays canonical, `pc` stays 0 to 256, a fault leaves `running`
true and records only what CORE can raise, with `pc` at the faulting opcode (D4, D7; log entries 4 and 7). -/
def Obligations.EveryStepKeepsTheInvariant : Prop := ∀ s t : State, s.Inv → step s = .next t → t.Inv

/-! Fatal conditions -/

/-- The opcode fetch (R71; `pc` does not wrap by D4, log entry 4, the state after a fault is D7, log entry 7): with `pc` above 255
it raises OutOfBounds(mem, pc); otherwise the opcode is the byte at `pc`. -/
def Obligations.OpcodeFetchBeyondMemoryFaults : Prop :=
  (∀ s : State, s.status = .running → 255 < s.pc → StepRaises s (.outOfBounds .mem s.pc)) ∧
  (∀ s : State, s.pc ≤ 255 → ∃ rest, fetchBytes s = s.mem.read s.pc :: rest)

/-- Illegal opcodes (R59, R121): every byte that is none of the 14 raises UnknownInstruction with the byte and the `pc` it was
fetched from, whatever follows it; there are 242 such bytes, 0x00 is one, so zeroed memory faults at once. The byte values are
D1's (log entry 1), the state after a fault is D7's (log entry 7). -/
def Obligations.UnknownOpcodesFault : Prop :=
  (∀ s : State, s.status = .running → s.pc ≤ 255 → (∀ m, opc m ≠ s.mem.read s.pc) →
    StepRaises s (.unknownInstruction (s.mem.read s.pc) s.pc)) ∧
  ((List.range 256).filter (fun n => (lookup opc (BitVec.ofNat 8 n)).isNone)).length = 242 ∧
  (∀ s : State, s.status = .running → s.pc ≤ 255 → s.mem.read s.pc = 0 → StepRaises s (.unknownInstruction 0 s.pc))

/-- Register operands (R14, R123): for each instruction with operands, an operand a above 7 raises OutOfBounds(reg, a), and for
ADD, SUB, MUL and CMP an operand b above 7 raises OutOfBounds(reg, b), with the unmasked byte as index, whether or not the
register would be read (D8, log entry 8); the state after a fault is D7's (log entry 7). -/
def Obligations.RegisterBytesAboveSevenFault : Prop :=
  ∀ (s : State) (m : Mnemonic), s.status = .running → s.mem.read s.pc = opc m → s.pc + 1 + m.operandCount ≤ 256 →
    (1 ≤ m.operandCount → 8 ≤ (s.mem.read (s.pc + 1)).toNat →
      StepRaises s (.outOfBounds .reg (s.mem.read (s.pc + 1)).toNat)) ∧
    (m ∈ [Mnemonic.add, .sub, .mul, .cmp] → (s.mem.read (s.pc + 1)).toNat ≤ 7 → 8 ≤ (s.mem.read (s.pc + 2)).toNat →
      StepRaises s (.outOfBounds .reg (s.mem.read (s.pc + 2)).toNat))

/-- The order of the checks where several apply (R128; the spec's own choice D6, log entry 6): an unknown opcode before any
operand fetch; the fetch of both operands before any register check; operand a before operand b; the register check before
CALL's return address. -/
def Obligations.FirstFaultInOrderIsReported : Prop :=
  (∀ s : State, s.status = .running → s.pc = 255 → (∀ m, opc m ≠ s.mem.read 255) →
    StepRaises s (.unknownInstruction (s.mem.read 255) 255)) ∧
  (∀ (s : State) (m : Mnemonic), s.status = .running → s.pc ≤ 255 → s.mem.read s.pc = opc m →
    256 < s.pc + 1 + m.operandCount → StepRaises s (.outOfBounds .mem 256)) ∧
  (∀ (s : State) (m : Mnemonic), s.status = .running → s.pc ≤ 253 → s.mem.read s.pc = opc m → m.bIsRegister = true →
    8 ≤ (s.mem.read (s.pc + 1)).toNat → 8 ≤ (s.mem.read (s.pc + 2)).toNat →
      StepRaises s (.outOfBounds .reg (s.mem.read (s.pc + 1)).toNat)) ∧
  (∀ s : State, s.status = .running → s.pc = 254 → s.mem.read 254 = opc .call →
    (8 ≤ (s.mem.read 255).toNat → StepRaises s (.outOfBounds .reg (s.mem.read 255).toNat)) ∧
    ((s.mem.read 255).toNat ≤ 7 → StepRaises s (.outOfBounds .mem 256)))

/-- Faults are precise (R124; the spec's own choice D7, log entry 7): a step that raises a fault changes nothing but the
record. -/
def Obligations.FaultingStepsChangeOnlyTheRecord : Prop :=
  ∀ (s t : State) (f : FaultRecord), step s = .next t → t.fault = some f → OnlyFaultSet f s t

/-- Of the 14 rules only CALL can raise a fault, with the return address 256 or above, before any write; every other rule
completes in every state (R74, R110; D5, log entry 5). -/
def Obligations.OnlyCallCanFaultOnceReached : Prop :=
  (∀ (i : Instr) (s : State), (∀ a, i ≠ .call a) → ∃ t, exec i s = .next t ∧ t.fault = s.fault) ∧
  (∀ (a : RegIx) (s : State), s.fault = none →
    (s.pc + 2 ≤ 255 → ∃ t, exec (.call a) s = .next t ∧ t.fault = none) ∧
    (255 < s.pc + 2 → ∃ t, exec (.call a) s = .next t ∧ OnlyFaultSet (.outOfBounds .mem (s.pc + 2)) s t))

/-- There is no return from a fault (R129; the Faulted status is D7's and D14's, log entries 7 and 14): a Faulted state has no
step and a run stays in it, and no instruction's rule clears a record. Reset gives a state without one. -/
def Obligations.FaultsAreNeverCleared : Prop :=
  (∀ (s : State) (f : FaultRecord), s.status = .faulted f → (∀ t, step s ≠ .next t) ∧ ∀ k, runFor k s = s) ∧
  (∀ (i : Instr) (s t : State), s.fault ≠ none → exec i s = .next t → t.fault ≠ none) ∧
  State.reset.fault = none

/-- The cause codes (R126; the spec's own choice D12, log entry 12), for the record a state holds, with the opcode, the address
or the index as information value. -/
def Obligations.CauseCodesNameTheCondition : Prop :=
  (∀ s : State, (causeCode s.fault = 0 ↔ ∀ f, s.status ≠ .faulted f)) ∧
  (∀ (op : Byte) (p : Nat), causeCode (some (.unknownInstruction op p)) = 1 ∧
    causeInfo (some (.unknownInstruction op p)) = op.toNat) ∧
  (∀ v : Nat, causeCode (some (.outOfBounds .mem v)) = 2 ∧ causeCode (some (.outOfBounds .reg v)) = 3 ∧
    causeInfo (some (.outOfBounds .mem v)) = v ∧ causeInfo (some (.outOfBounds .reg v)) = v)

/-! Whole-machine rules over all instructions -/

/-- How each instruction writes `pc` (R17), and that a step that raises a fault does not (D7, log entry 7); the step adds nothing.
CALL reads its register after the stack pointer was decremented (D9, log entry 9). -/
def Obligations.NextPcTable : Prop :=
  (∀ (s : State) (a b : RegIx) (imm : Byte), ∀ i ∈ [Instr.ldi a imm, .add a b, .sub a b, .mul a b, .cmp a b],
    ∃ t, exec i s = .next t ∧ t.pc = s.pc + 3) ∧
  (∀ (s : State) (a : RegIx), ∀ i ∈ [Instr.prn a, .push a, .pop a], ∃ t, exec i s = .next t ∧ t.pc = s.pc + 2) ∧
  (∀ s : State, ∃ t, exec .hlt s = .next t ∧ t.pc = s.pc + 1) ∧
  (∀ (s : State) (a : RegIx), s.pc ≤ 253 → ∃ t, exec (.call a) s = .next t ∧ t.pc = (t.reg a).toNat) ∧
  (∀ s : State, ∃ t, exec .ret s = .next t ∧ t.pc = (s.mem.read s.sp.toNat).toNat) ∧
  (∀ (s : State) (a : RegIx), (∃ t, exec (.jmp a) s = .next t ∧ t.pc = (s.reg a).toNat) ∧
    (∃ t, exec (.jeq a) s = .next t ∧ t.pc = if s.flag = true then (s.reg a).toNat else s.pc + 2) ∧
    (∃ t, exec (.jne a) s = .next t ∧ t.pc = if s.flag = false then (s.reg a).toNat else s.pc + 2)) ∧
  (∀ (s : State) (i : Instr), s.status = .running → fetchDecode s = .ok i → step s = exec i s) ∧
  (∀ s t : State, step s = .next t → t.fault ≠ none → t.pc = s.pc)

/-- Which instruction reads and writes which register (R13): no register outside the instruction's written ones changes, and
two states that agree on the registers read, and on everything but registers, agree after it on the registers written and on
everything but registers. -/
def Obligations.RegisterReadAndWriteTable : Prop :=
  (∀ (i : Instr) (s t : State), exec i s = .next t → SameRegsExcept (writtenRegs i) s t) ∧
  (∀ (i : Instr) (s u t v : State), u = { s with regs := u.regs } → (∀ r ∈ readRegs s.flag i, u.reg r = s.reg r) →
    exec i s = .next t → exec i u = .next v →
    v = { t with regs := v.regs } ∧ ∀ r ∈ writtenRegs i, v.reg r = t.reg r)

/-- The flag (R18): CMP alone writes it, to the equality of the two registers, whatever it was; only JEQ and JNE read it: any
other instruction does the same whatever the flag is, and all but CMP leave it as it is. -/
def Obligations.FlagIsSetByCmpAndReadByJumpsOnly : Prop :=
  (∀ (i : Instr) (s t : State), (∀ a b, i ≠ .cmp a b) → exec i s = .next t → t.flag = s.flag) ∧
  (∀ (a b : RegIx) (s : State), ∃ t, exec (.cmp a b) s = .next t ∧ (t.flag = true ↔ s.reg a = s.reg b)) ∧
  (∀ (a b : RegIx) (s : State) (f : Bool), exec (.cmp a b) (s.setFlag f) = exec (.cmp a b) s) ∧
  (∀ (i : Instr) (s t : State) (f : Bool), (∀ a b, i ≠ .cmp a b) → (∀ a, i ≠ .jeq a) → (∀ a, i ≠ .jne a) →
    exec i s = .next t → exec i (s.setFlag f) = .next (t.setFlag f)) ∧
  (∀ s t : State, step s = .next t → t.flag ≠ s.flag → ∃ a b, fetchDecode s = .ok (.cmp a b))

/-- The run state (R20): true at reset; a step makes it false exactly if the instruction is HLT, which is the sole normal end;
nothing sets it true; no instruction reads it. That the status is then Halted and that no step is taken once it is false are
R22's and R70's, the spec's own choice D14 (log entry 14; with a fault record beside it, log entry 20). -/
def Obligations.RunningIsClearedByHltOnly : Prop :=
  State.reset.running = true ∧
  (∀ s t : State, step s = .next t → (t.running = false ↔ fetchDecode s = .ok .hlt)) ∧
  (∀ s t : State, step s = .next t → (t.status = .halted ↔ fetchDecode s = .ok .hlt)) ∧
  (∀ (i : Instr) (s t : State), s.running = false → exec i s = .next t → t.running = false) ∧
  (∀ s t : State, s.running = false → step s ≠ .next t) ∧
  (∀ (i : Instr) (s t : State) (b : Bool), i ≠ .hlt → exec i s = .next t →
    exec i { s with running := b } = .next { t with running := b })

/-- The output (R25; that it is a byte sequence is the spec's own choice D11, log entry 11): empty at reset; a PRN appends the
register's value, every other step leaves the sequence as it is, so it only grows; no instruction reads it: with another
sequence before, everything else is the same after. -/
def Obligations.OutputIsAppendedByPrnOnly : Prop :=
  State.reset.out = [] ∧
  (∀ (a : RegIx) (s : State), ∃ t, exec (.prn a) s = .next t ∧ t.out = s.out ++ [s.reg a]) ∧
  (∀ s t : State, step s = .next t → (∀ a, fetchDecode s ≠ .ok (.prn a)) → t.out = s.out) ∧
  (∀ s t : State, step s = .next t → ∃ new, t.out = s.out ++ new ∧ new.length ≤ 1) ∧
  (∀ (i : Instr) (s t : State) (before : List Byte), exec i s = .next t →
    ∃ new, exec i { s with out := before } = .next { t with out := before ++ new } ∧ t.out = s.out ++ new)

/-- Which instructions reach memory (R33): only PUSH and CALL write it, one byte at the new stack pointer; only POP and RET
read it, one byte at the old stack pointer; any other instruction does the same whatever the memory is. -/
def Obligations.OnlyStackInstructionsReachMemory : Prop :=
  (∀ (i : Instr) (s t : State), (∀ a, i ≠ .push a) → (∀ a, i ≠ .call a) → exec i s = .next t → t.mem = s.mem) ∧
  (∀ (i : Instr) (s t : State), s.mem.wf → exec i s = .next t → SameMemExcept (pushAddr s) s t) ∧
  (∀ (i : Instr) (s t : State) (m : Memory), (∀ a, i ≠ .pop a) → i ≠ .ret →
    exec i s = .next t → ∃ n, exec i (s.setMem m) = .next (t.setMem n)) ∧
  (∀ (i : Instr) (s t : State) (m : Memory), (∀ a, i ≠ .push a) → (∀ a, i ≠ .call a) →
    m.read s.sp.toNat = s.mem.read s.sp.toNat → exec i s = .next t → exec i (s.setMem m) = .next (t.setMem m))

/-! The instructions: result, frame and completion. The opcode bytes rest on D1 (log entry 1). -/

/-- LDI (R80): writes the immediate as it stands, any byte to any register, 7 among them, and advances `pc` by 3; nothing else
changes. -/
def Obligations.LdiLoadsTheImmediate : Prop :=
  (∀ (a : RegIx) (imm : Byte) (s : State), ∃ t, exec (.ldi a imm) s = .next t ∧ t.reg a = imm ∧ t.pc = s.pc + 3 ∧
    SameRegsExcept [a] s t ∧ t.flag = s.flag ∧ SameControl s t ∧ SameMem s t) ∧
  (∀ (a : RegIx) (imm : Byte), encode (.ldi a imm) = [0x82, BitVec.ofNat 8 a.val, imm]) ∧
  FetchFaultsRegImm .ldi

/-- PRN (R81): appends the register's value to the output and advances `pc` by 2; nothing else changes. -/
def Obligations.PrnEmitsTheRegister : Prop :=
  (∀ (a : RegIx) (s : State), ∃ t, exec (.prn a) s = .next t ∧ t.out = s.out ++ [s.reg a] ∧ t.pc = s.pc + 2 ∧
    SameRegsExcept [] s t ∧ t.flag = s.flag ∧ t.running = s.running ∧ t.fault = s.fault ∧ SameMem s t) ∧
  (∀ a : RegIx, encode (.prn a) = [0x47, BitVec.ofNat 8 a.val]) ∧ FetchFaultsF1 .prn

/-- HLT (R82): clears `running` and advances `pc` by 1, at address 255 too, where `pc` becomes 256 with no fault; nothing else
changes; where the opcode could be fetched no fault is raised, and afterwards the status is Halted. -/
def Obligations.HltStopsTheMachine : Prop :=
  (∀ s : State, ∃ t, exec .hlt s = .next t ∧ t.running = false ∧ t.pc = s.pc + 1 ∧ SameRegsExcept [] s t ∧
    t.flag = s.flag ∧ t.fault = s.fault ∧ t.out = s.out ∧ SameMem s t) ∧
  encode .hlt = [0x01] ∧
  (∀ s : State, s.status = .running → s.pc ≤ 255 → s.mem.read s.pc = 0x01 →
    step s = exec .hlt s ∧ ∃ t, step s = .next t ∧ t.status = .halted)

/-- ADD (R90, R94): the sum modulo 256 into register a; `pc` advances by 3; nothing else changes. -/
def Obligations.AddWritesTheSum : Prop :=
  (∀ (a b : RegIx) (s : State), ∃ t, exec (.add a b) s = .next t ∧
    (t.reg a).toNat = ((s.reg a).toNat + (s.reg b).toNat) % 256 ∧ t.pc = s.pc + 3 ∧
    SameRegsExcept [a] s t ∧ t.flag = s.flag ∧ SameControl s t ∧ SameMem s t) ∧
  (∀ a b : RegIx, encode (.add a b) = [0xA0, BitVec.ofNat 8 a.val, BitVec.ofNat 8 b.val]) ∧ FetchFaultsRegReg .add

/-- SUB (R91, R94): the difference modulo 256, the non-negative remainder of R5, into register a; `pc` advances by 3; nothing
else changes. -/
def Obligations.SubWritesTheDifference : Prop :=
  (∀ (a b : RegIx) (s : State), ∃ t, exec (.sub a b) s = .next t ∧
    ((t.reg a).toNat : Int) = ((s.reg a).toNat - (s.reg b).toNat : Int) % 256 ∧ t.pc = s.pc + 3 ∧
    SameRegsExcept [a] s t ∧ t.flag = s.flag ∧ SameControl s t ∧ SameMem s t) ∧
  (∀ a b : RegIx, encode (.sub a b) = [0xA1, BitVec.ofNat 8 a.val, BitVec.ofNat 8 b.val]) ∧ FetchFaultsRegReg .sub

/-- MUL (R92, R94): the low 8 bits of the product into register a; `pc` advances by 3; nothing else changes. -/
def Obligations.MulWritesTheLowProduct : Prop :=
  (∀ (a b : RegIx) (s : State), ∃ t, exec (.mul a b) s = .next t ∧
    (t.reg a).toNat = ((s.reg a).toNat * (s.reg b).toNat) % 256 ∧ t.pc = s.pc + 3 ∧
    SameRegsExcept [a] s t ∧ t.flag = s.flag ∧ SameControl s t ∧ SameMem s t) ∧
  (∀ a b : RegIx, encode (.mul a b) = [0xA2, BitVec.ofNat 8 a.val, BitVec.ofNat 8 b.val]) ∧ FetchFaultsRegReg .mul

/-- CMP (R93): the flag becomes 1 if the two registers are equal, else 0; `pc` advances by 3; nothing else changes. -/
def Obligations.CmpSetsTheFlagOnEquality : Prop :=
  (∀ (a b : RegIx) (s : State), ∃ t, exec (.cmp a b) s = .next t ∧
    t.flag = decide ((s.reg a).toNat = (s.reg b).toNat) ∧ t.pc = s.pc + 3 ∧
    SameRegsExcept [] s t ∧ SameControl s t ∧ SameMem s t) ∧
  (∀ a b : RegIx, encode (.cmp a b) = [0xA7, BitVec.ofNat 8 a.val, BitVec.ofNat 8 b.val]) ∧ FetchFaultsRegReg .cmp

/-- PUSH (R100): the stack pointer is decremented modulo 256 and the register's value, read after the decrement, is written
there; PUSH R7 so stores the decremented stack pointer (D9, log entry 9; wrap: D10, log entry 10); `pc` advances by 2; nothing
else changes. -/
def Obligations.PushStoresBelowTheStackPointer : Prop :=
  (∀ (a : RegIx) (s : State), s.mem.wf → ∃ t, exec (.push a) s = .next t ∧
    t.sp.toNat = (s.sp.toNat + 255) % 256 ∧ t.mem.read t.sp.toNat = t.reg a ∧ (a ≠ 7 → t.reg a = s.reg a) ∧
    t.sp.toNat = pushAddr s ∧ SameMemExcept (pushAddr s) s t ∧ SameRegsExcept [7] s t ∧ t.pc = s.pc + 2 ∧
    t.flag = s.flag ∧ SameControl s t) ∧
  (∀ a : RegIx, encode (.push a) = [0x45, BitVec.ofNat 8 a.val]) ∧ FetchFaultsF1 .push

/-- POP (R101): the byte at the stack pointer goes to the register, then the stack pointer is incremented modulo 256; POP R7 so
ends with the popped byte plus 1 (D9, log entry 9; wrap: D10, log entry 10); `pc` advances by 2; nothing else changes. -/
def Obligations.PopLoadsFromTheStackPointer : Prop :=
  (∀ (a : RegIx) (s : State), ∃ t, exec (.pop a) s = .next t ∧
    (a ≠ 7 → t.reg a = s.mem.read s.sp.toNat ∧ t.sp.toNat = (s.sp.toNat + 1) % 256) ∧
    (a = 7 → t.sp.toNat = ((s.mem.read s.sp.toNat).toNat + 1) % 256) ∧
    SameRegsExcept [a, 7] s t ∧ t.pc = s.pc + 2 ∧ t.flag = s.flag ∧ SameControl s t ∧ SameMem s t) ∧
  (∀ a : RegIx, encode (.pop a) = [0x46, BitVec.ofNat 8 a.val]) ∧ FetchFaultsF1 .pop

/-- CALL (R110): with a return address `pc + 2` that is a byte, it is pushed and `pc` is the register's value, read after the
decrement, so CALL R7 jumps to the decremented stack pointer (D9, log entry 9); a return address above 255 raises
OutOfBounds(mem, pc + 2) and writes nothing (D5, log entry 5). -/
def Obligations.CallPushesTheReturnAddress : Prop :=
  (∀ (a : RegIx) (s : State), s.mem.wf → s.pc + 2 ≤ 255 → ∃ t, exec (.call a) s = .next t ∧
    t.sp.toNat = (s.sp.toNat + 255) % 256 ∧ (t.mem.read t.sp.toNat).toNat = s.pc + 2 ∧
    t.pc = (t.reg a).toNat ∧ (a ≠ 7 → t.reg a = s.reg a) ∧ t.sp.toNat = pushAddr s ∧
    SameMemExcept (pushAddr s) s t ∧ SameRegsExcept [7] s t ∧ t.flag = s.flag ∧ SameControl s t) ∧
  (∀ (a : RegIx) (s : State), 255 < s.pc + 2 →
    ∃ t, exec (.call a) s = .next t ∧ OnlyFaultSet (.outOfBounds .mem (s.pc + 2)) s t) ∧
  (∀ a : RegIx, encode (.call a) = [0x50, BitVec.ofNat 8 a.val]) ∧ FetchFaultsF1 .call

/-- RET (R111): `pc` is the byte at the stack pointer, which is then incremented modulo 256 (D10, log entry 10); nothing else
changes; where the opcode could be fetched no fault is raised. -/
def Obligations.RetPopsThePc : Prop :=
  (∀ s : State, ∃ t, exec .ret s = .next t ∧ t.pc = (s.mem.read s.sp.toNat).toNat ∧
    t.sp.toNat = (s.sp.toNat + 1) % 256 ∧ SameRegsExcept [7] s t ∧ t.flag = s.flag ∧ SameControl s t ∧ SameMem s t) ∧
  encode .ret = [0x11] ∧
  (∀ s : State, s.status = .running → s.pc ≤ 255 → s.mem.read s.pc = 0x11 → step s = exec .ret s)

/-- JMP (R112): `pc` is the full value of the register; nothing else changes. -/
def Obligations.JmpGoesToTheRegister : Prop :=
  (∀ (a : RegIx) (s : State), ∃ t, exec (.jmp a) s = .next t ∧ t.pc = (s.reg a).toNat ∧
    SameRegsExcept [] s t ∧ t.flag = s.flag ∧ SameControl s t ∧ SameMem s t) ∧
  (∀ a : RegIx, encode (.jmp a) = [0x54, BitVec.ofNat 8 a.val]) ∧ FetchFaultsF1 .jmp

/-- JEQ (R113): with the flag 1 to the register's value, else on by 2; the operand is checked either way (D8, log entry 8);
nothing else changes. -/
def Obligations.JeqJumpsOnFlagOne : Prop :=
  (∀ (a : RegIx) (s : State), ∃ t, exec (.jeq a) s = .next t ∧ (s.flag = true → t.pc = (s.reg a).toNat) ∧
    (s.flag = false → t.pc = s.pc + 2) ∧ SameRegsExcept [] s t ∧ t.flag = s.flag ∧ SameControl s t ∧ SameMem s t) ∧
  (∀ a : RegIx, encode (.jeq a) = [0x55, BitVec.ofNat 8 a.val]) ∧ FetchFaultsF1 .jeq

/-- JNE (R114): with the flag 0 to the register's value, else on by 2; the operand is checked either way (D8, log entry 8);
nothing else changes. -/
def Obligations.JneJumpsOnFlagZero : Prop :=
  (∀ (a : RegIx) (s : State), ∃ t, exec (.jne a) s = .next t ∧ (s.flag = false → t.pc = (s.reg a).toNat) ∧
    (s.flag = true → t.pc = s.pc + 2) ∧ SameRegsExcept [] s t ∧ t.flag = s.flag ∧ SameControl s t ∧ SameMem s t) ∧
  (∀ a : RegIx, encode (.jne a) = [0x56, BitVec.ofNat 8 a.val]) ∧ FetchFaultsF1 .jne

/-! Properties of several instructions together -/

/-- The ALU (R94): for any two bytes ADD, SUB and MUL put the sum, the difference and the product modulo 256 into register a
and write no flag; CMP puts the bit of equality into the flag and writes no register. -/
def Obligations.AluResultsAreModulo256 : Prop :=
  (∀ (a b : RegIx) (s : State),
    ((aluApply .add a b s).reg a).toNat = ((s.reg a).toNat + (s.reg b).toNat) % 256 ∧
    ((s.reg b).toNat ≤ (s.reg a).toNat → ((aluApply .sub a b s).reg a).toNat = (s.reg a).toNat - (s.reg b).toNat) ∧
    ((s.reg a).toNat < (s.reg b).toNat →
      ((aluApply .sub a b s).reg a).toNat = (s.reg a).toNat + 256 - (s.reg b).toNat) ∧
    ((aluApply .mul a b s).reg a).toNat = ((s.reg a).toNat * (s.reg b).toNat) % 256 ∧
    ((aluApply .cmp a b s).flag = true ↔ (s.reg a).toNat = (s.reg b).toNat)) ∧
  (∀ (op : AluOp) (a b : RegIx) (s : State),
    (op ≠ .cmp → SameRegsExcept [a] s (aluApply op a b s) ∧ (aluApply op a b s).flag = s.flag) ∧
    SameRegsExcept (if op = .cmp then [] else [a]) s (aluApply op a b s) ∧ (aluApply op a b s).mem = s.mem ∧
    (aluApply op a b s).pc = s.pc ∧ SameControl s (aluApply op a b s))

/-- The stack discipline (R102; the wrap is D10's, log entry 10): a push writes at the decremented stack pointer, a pop reads at
the stack pointer and then increments it, leaving the cell's byte; after reset the first push writes cell 0xF3. Neither is ever
checked against a limit. -/
def Obligations.StackIsFullDescending : Prop :=
  (∀ (s : State) (v : Byte), s.mem.wf → ∃ t, push s v = .ok t ∧ t.sp.toNat = (s.sp.toNat + 255) % 256 ∧
    t.mem.read t.sp.toNat = v ∧ SameMemExcept t.sp.toNat s t ∧ SameRegsExcept [7] s t ∧ t.pc = s.pc ∧ t.flag = s.flag ∧
    SameControl s t) ∧
  (∀ s : State, ∃ t, pop s = .ok (s.mem.read s.sp.toNat, t) ∧ t.sp.toNat = (s.sp.toNat + 1) % 256 ∧ t.mem = s.mem ∧
    SameRegsExcept [7] s t ∧ t.pc = s.pc ∧ t.flag = s.flag ∧ SameControl s t) ∧
  State.reset.sp = 0xF4 ∧ (∀ v : Byte, ∃ t, push State.reset v = .ok t ∧ t.mem.read 0xF3 = v)

/-- PUSH then POP (S3, R101): for registers 0 to 6 the second register gets the first's value and the stack pointer is as
before, from every stack pointer, 0 too. -/
def Obligations.PushThenPopRestoresTheStackPointer : Prop :=
  ∀ (a b : RegIx) (s t u : State), s.mem.wf → a ≠ 7 → b ≠ 7 → exec (.push a) s = .next t → exec (.pop b) t = .next u →
    u.reg b = s.reg a ∧ u.sp = s.sp ∧ SameRegsExcept [b] s u ∧ u.pc = s.pc + 4

/-- CALL then RET (S4, R110, R111; conflict C12): whatever the subroutine does, if at its RET the stack pointer is what CALL left
and the cell there is as CALL wrote it, execution resumes two bytes after the CALL with the stack pointer as before. -/
def Obligations.RetReturnsAfterTheCall : Prop :=
  ∀ (a : RegIx) (s t u v : State), s.mem.wf → s.pc + 2 ≤ 255 → exec (.call a) s = .next t → u.sp = t.sp →
    u.mem.read u.sp.toNat = t.mem.read t.sp.toNat → exec .ret u = .next v →
    v.pc = s.pc + 2 ∧ v.sp = s.sp

/-- CMP then JEQ or JNE (S5, R93, R113, R114): after CMP a, b exactly one of JEQ and JNE with one operand jumps: JEQ if the
registers are equal, JNE if not. -/
def Obligations.CmpThenJumpTestsEquality : Prop :=
  ∀ (a b d : RegIx) (s t u v : State), exec (.cmp a b) s = .next t → exec (.jeq d) t = .next u → exec (.jne d) t = .next v →
    (s.reg a = s.reg b → u.pc = (s.reg d).toNat ∧ v.pc = s.pc + 5) ∧
    (s.reg a ≠ s.reg b → u.pc = s.pc + 5 ∧ v.pc = (s.reg d).toNat)

/-- Self-modifying code (R43; the spec's own choice D20, log entry 21): the byte a PUSH or CALL stores is the opcode of the very
next step when that step fetches from the cell. -/
def Obligations.StoredByteIsFetchedNext : Prop :=
  ∀ (i : Instr) (s t : State), s.mem.wf → ((∃ a, i = .push a) ∨ ∃ a, i = .call a) → exec i s = .next t → t.fault = none →
    t.pc = pushAddr s → ∃ rest, fetchBytes t = t.mem.read (pushAddr s) :: rest ∧
      ∀ a, (i = .push a → t.mem.read (pushAddr s) = t.reg a) ∧
        (i = .call a → (t.mem.read (pushAddr s)).toNat = s.pc + 2)

/-- Stack-pointer arithmetic wraps (R45; the spec's own choice D10, log entry 10): a push from 0x00 writes cell 0xFF, a pop from
0xFF reads cell 0xFF and goes to 0x00, and no stack access ever faults. -/
def Obligations.StackPointerWrapsWithoutFault : Prop :=
  (∀ (s : State) (v : Byte), s.mem.wf → s.sp = 0x00 → ∃ t, push s v = .ok t ∧ t.sp = 0xFF ∧ t.mem.read 0xFF = v) ∧
  (∀ s : State, s.sp = 0xFF → ∃ t, pop s = .ok (s.mem.read 0xFF, t) ∧ t.sp = 0x00) ∧
  (∀ (s : State) (v : Byte) (f : FaultRecord), push s v ≠ .error f ∧ pop s ≠ .error f)

/-- The rendering of the output (R162; digits and newline: D11, log entry 11): each value gives one line, in order, of decimal
digits that read back as the value, with no leading zero, ended by one newline. -/
def Obligations.RenderedLinesReadBack : Prop :=
  (∀ v : Byte, ∃ digits : List Nat, decimal v = digits.map digitChar ∧ (∀ d ∈ digits, d ≤ 9) ∧
    digits.foldl (fun n d => 10 * n + d) 0 = v.toNat ∧ (digits.head? = some 0 → v = 0 ∧ digits = [0]) ∧ digits ≠ []) ∧
  (∀ d : Nat, d ≤ 9 → (digitChar d).toNat = '0'.toNat + d) ∧
  (∀ (before : List Byte) (v : Byte), render (before ++ [v]) = render before ++ decimal v ++ ['\n']) ∧ render [] = []
end

