-- ==== Sys2Proof/Laws/Decode.lean ====
section
/-! SUPPORT. What the decoder's parts answer. -/

namespace Sys2Proof

theorem Mnemonic.mem_all (m : Mnemonic) : m ∈ Mnemonic.all := by cases m <;> decide

/-- The default opcodes code the operand count in bits 7:6 (R52). -/
theorem opc_nops (m : Mnemonic) : nopsField (opc m) = m.operandCount := by cases m <;> decide

/-- The default opcodes have bit 4 set exactly for the control transfers (R53). -/
theorem opc_setsPc (m : Mnemonic) : setsPcField (opc m) = m.setsPc := by cases m <;> decide

/-- A found mnemonic has the byte as its opcode. -/
theorem lookup_some {o : OpcodeMap} {op : Byte} {m : Mnemonic} (h : lookup o op = some m) : o m = op := by
  have h := List.find?_some h
  simpa using h

/-- A byte is unknown exactly if it is no mnemonic's opcode (R59). -/
theorem lookup_none {o : OpcodeMap} {op : Byte} : lookup o op = none ↔ ∀ m, o m ≠ op := by
  simp [lookup, List.find?_eq_none, Mnemonic.mem_all]

/-- A register byte from 0 to 7 is its own index. -/
theorem regIndex_ok (v : Byte) (h : v.toNat < 8) : regIndex v = .ok ⟨v.toNat, h⟩ := by
  simp [regIndex, h]

/-- A register byte above 7 is rejected with its value (R55). -/
theorem regIndex_error (v : Byte) (h : 8 ≤ v.toNat) : regIndex v = .error (.badRegister v) := by
  simp [regIndex]
  omega

/-- The operand byte of a register names that register. -/
theorem regIndex_regByte (r : RegIx) : regIndex (regByte r) = .ok r := by
  revert r
  decide

/-- A known opcode is decoded by its operands. -/
theorem decodeWith_known {o : OpcodeMap} {op : Byte} {m : Mnemonic} (h : lookup o op = some m) (rest : List Byte) :
    decodeWith o (op :: rest) = decodeOperands m rest := by
  simp [decodeWith, h]

/-- An unknown opcode is rejected whatever follows it (R72). -/
theorem decodeWith_unknown {o : OpcodeMap} {op : Byte} (h : lookup o op = none) (rest : List Byte) :
    decodeWith o (op :: rest) = .error (.unknownOpcode op) := by
  simp [decodeWith, h]

end Sys2Proof
end

