-- ==== Sys2Proof/Laws/State.lean ====
section
/-! SUPPORT. Each field after each update: one lemma per pair, so that no later proof unfolds a record update. -/

namespace Sys2Proof

/-! Config -/

@[simp] theorem Config.memSize_val : Config.memSize = 256 := rfl

@[simp] theorem Config.spIndex_val : Config.spIndex = (7 : RegIx) := rfl

@[simp] theorem Config.memReset_val : Config.memReset = 0#8 := rfl

end Sys2Proof

namespace Sys2Proof.Machine

variable (s : State)

/-! Reading a register -/

theorem State.sp_eq : s.sp = s.reg 7 := rfl

@[simp] theorem State.setReg_reg (r q : RegIx) (v : Byte) :
    (s.setReg r v).reg q = if r = q then v else s.reg q := by
  simp [State.reg, State.setReg, Vector.getElem_set, Fin.ext_iff]

/-! setReg -/

@[simp] theorem State.setReg_pc (r : RegIx) (v : Byte) : (s.setReg r v).pc = s.pc := rfl

@[simp] theorem State.setReg_flag (r : RegIx) (v : Byte) : (s.setReg r v).flag = s.flag := rfl

@[simp] theorem State.setReg_running (r : RegIx) (v : Byte) : (s.setReg r v).running = s.running := rfl

@[simp] theorem State.setReg_fault (r : RegIx) (v : Byte) : (s.setReg r v).fault = s.fault := rfl

@[simp] theorem State.setReg_mem (r : RegIx) (v : Byte) : (s.setReg r v).mem = s.mem := rfl

@[simp] theorem State.setReg_out (r : RegIx) (v : Byte) : (s.setReg r v).out = s.out := rfl

@[simp] theorem State.setReg_sp (r : RegIx) (v : Byte) : (s.setReg r v).sp = if r = 7 then v else s.sp := by
  simp [State.sp_eq]

/-! setPc -/

@[simp] theorem State.setPc_regs (n : Nat) : (s.setPc n).regs = s.regs := rfl

@[simp] theorem State.setPc_pc (n : Nat) : (s.setPc n).pc = n := rfl

@[simp] theorem State.setPc_flag (n : Nat) : (s.setPc n).flag = s.flag := rfl

@[simp] theorem State.setPc_running (n : Nat) : (s.setPc n).running = s.running := rfl

@[simp] theorem State.setPc_fault (n : Nat) : (s.setPc n).fault = s.fault := rfl

@[simp] theorem State.setPc_mem (n : Nat) : (s.setPc n).mem = s.mem := rfl

@[simp] theorem State.setPc_out (n : Nat) : (s.setPc n).out = s.out := rfl

@[simp] theorem State.setPc_reg (n : Nat) (q : RegIx) : (s.setPc n).reg q = s.reg q := rfl

@[simp] theorem State.setPc_sp (n : Nat) : (s.setPc n).sp = s.sp := rfl

/-! setFlag -/

@[simp] theorem State.setFlag_regs (b : Bool) : (s.setFlag b).regs = s.regs := rfl

@[simp] theorem State.setFlag_pc (b : Bool) : (s.setFlag b).pc = s.pc := rfl

@[simp] theorem State.setFlag_flag (b : Bool) : (s.setFlag b).flag = b := rfl

@[simp] theorem State.setFlag_running (b : Bool) : (s.setFlag b).running = s.running := rfl

@[simp] theorem State.setFlag_fault (b : Bool) : (s.setFlag b).fault = s.fault := rfl

@[simp] theorem State.setFlag_mem (b : Bool) : (s.setFlag b).mem = s.mem := rfl

@[simp] theorem State.setFlag_out (b : Bool) : (s.setFlag b).out = s.out := rfl

@[simp] theorem State.setFlag_reg (b : Bool) (q : RegIx) : (s.setFlag b).reg q = s.reg q := rfl

@[simp] theorem State.setFlag_sp (b : Bool) : (s.setFlag b).sp = s.sp := rfl

/-! halt -/

@[simp] theorem State.halt_regs : (s.halt).regs = s.regs := rfl

@[simp] theorem State.halt_pc : (s.halt).pc = s.pc := rfl

@[simp] theorem State.halt_flag : (s.halt).flag = s.flag := rfl

@[simp] theorem State.halt_running : (s.halt).running = false := rfl

@[simp] theorem State.halt_fault : (s.halt).fault = s.fault := rfl

@[simp] theorem State.halt_mem : (s.halt).mem = s.mem := rfl

@[simp] theorem State.halt_out : (s.halt).out = s.out := rfl

@[simp] theorem State.halt_reg (q : RegIx) : (s.halt).reg q = s.reg q := rfl

@[simp] theorem State.halt_sp : (s.halt).sp = s.sp := rfl

/-! setMem -/

@[simp] theorem State.setMem_regs (m : Memory) : (s.setMem m).regs = s.regs := rfl

@[simp] theorem State.setMem_pc (m : Memory) : (s.setMem m).pc = s.pc := rfl

@[simp] theorem State.setMem_flag (m : Memory) : (s.setMem m).flag = s.flag := rfl

@[simp] theorem State.setMem_running (m : Memory) : (s.setMem m).running = s.running := rfl

@[simp] theorem State.setMem_fault (m : Memory) : (s.setMem m).fault = s.fault := rfl

@[simp] theorem State.setMem_mem (m : Memory) : (s.setMem m).mem = m := rfl

@[simp] theorem State.setMem_out (m : Memory) : (s.setMem m).out = s.out := rfl

@[simp] theorem State.setMem_reg (m : Memory) (q : RegIx) : (s.setMem m).reg q = s.reg q := rfl

@[simp] theorem State.setMem_sp (m : Memory) : (s.setMem m).sp = s.sp := rfl

/-! emit -/

@[simp] theorem State.emit_regs (v : Byte) : (s.emit v).regs = s.regs := rfl

@[simp] theorem State.emit_pc (v : Byte) : (s.emit v).pc = s.pc := rfl

@[simp] theorem State.emit_flag (v : Byte) : (s.emit v).flag = s.flag := rfl

@[simp] theorem State.emit_running (v : Byte) : (s.emit v).running = s.running := rfl

@[simp] theorem State.emit_fault (v : Byte) : (s.emit v).fault = s.fault := rfl

@[simp] theorem State.emit_mem (v : Byte) : (s.emit v).mem = s.mem := rfl

@[simp] theorem State.emit_out (v : Byte) : (s.emit v).out = s.out ++ [v] := rfl

@[simp] theorem State.emit_reg (v : Byte) (q : RegIx) : (s.emit v).reg q = s.reg q := rfl

@[simp] theorem State.emit_sp (v : Byte) : (s.emit v).sp = s.sp := rfl

/-! raise -/

@[simp] theorem State.raise_regs (f : FaultRecord) : (s.raise f).regs = s.regs := rfl

@[simp] theorem State.raise_pc (f : FaultRecord) : (s.raise f).pc = s.pc := rfl

@[simp] theorem State.raise_flag (f : FaultRecord) : (s.raise f).flag = s.flag := rfl

@[simp] theorem State.raise_running (f : FaultRecord) : (s.raise f).running = s.running := rfl

@[simp] theorem State.raise_fault (f : FaultRecord) : (s.raise f).fault = some f := rfl

@[simp] theorem State.raise_mem (f : FaultRecord) : (s.raise f).mem = s.mem := rfl

@[simp] theorem State.raise_out (f : FaultRecord) : (s.raise f).out = s.out := rfl

@[simp] theorem State.raise_reg (f : FaultRecord) (q : RegIx) : (s.raise f).reg q = s.reg q := rfl

@[simp] theorem State.raise_sp (f : FaultRecord) : (s.raise f).sp = s.sp := rfl

/-! Status -/

/-- Running is the conjunction of R22. -/
theorem State.status_running : s.status = .running ↔ s.running = true ∧ s.fault = none := by
  unfold State.status
  cases h : s.fault <;> cases s.running <;> simp

theorem State.status_halted : s.status = .halted ↔ s.running = false ∧ s.fault = none := by
  unfold State.status
  cases h : s.fault <;> cases s.running <;> simp

theorem State.status_faulted (f : FaultRecord) : s.status = .faulted f ↔ s.fault = some f := by
  unfold State.status
  cases h : s.fault <;> cases s.running <;> simp

/-- Two states with equal registers have equal register files. -/
theorem State.regs_ext (t : State) (h : ∀ r : RegIx, s.reg r = t.reg r) : s.regs = t.regs := by
  apply Vector.ext
  intro k hk
  exact h ⟨k, hk⟩

end Sys2Proof.Machine
end

