-- ==== Sys2Proof/Laws/Memory.lean ====
section
/-! SUPPORT. The memory: read after write, and every operation keeps the canonical form. -/

namespace Sys2Proof.Machine

@[simp] theorem Memory.read_nil (a : Nat) : Memory.read [] a = 0#8 := rfl

/-- The empty memory, that of reset, is in canonical form. -/
theorem Memory.wf_nil : Memory.wf [] := ⟨List.Pairwise.nil, by simp⟩

/-- An address below every listed one reads as the reset byte. -/
theorem Memory.read_below (m : Memory) (a : Nat) (h : ∀ c ∈ m, a < c.1) : m.read a = 0#8 := by
  induction m with
  | nil => rfl
  | cons c m ih =>
    have hc := h c (by simp)
    have hne : a ≠ c.1 := by omega
    simpa [Memory.read, hne] using ih (fun d hd => h d (by simp [hd]))

/-- Addresses of a written memory are the old ones and the one written. -/
theorem Memory.mem_write (m : Memory) (a : Nat) (v : Byte) (c : Host.Cell) (h : c ∈ m.write a v) :
    c ∈ m ∨ (c = (a, v) ∧ v ≠ 0#8) := by
  induction m with
  | nil =>
    unfold Memory.write at h
    split at h
    · simp at h
    · simp_all
  | cons d m ih =>
    obtain ⟨b, w⟩ := d
    unfold Memory.write at h
    split_ifs at h <;> simp only [List.mem_cons] at h ⊢
    · exact .inl h
    · rcases h with h | h
      · simp_all
      · exact .inl h
    · exact .inl (.inr h)
    · rcases h with h | h
      · simp_all
      · exact .inl (.inr h)
    · rcases h with h | h
      · exact .inl (.inl h)
      · rcases ih h with h | h
        · exact .inl (.inr h)
        · exact .inr h

/-- A write keeps the canonical form. -/
theorem Memory.write_wf (m : Memory) (a : Nat) (v : Byte) (hm : m.wf) (ha : a < 256) : (m.write a v).wf := by
  induction m with
  | nil =>
    unfold Memory.write
    split
    · exact Memory.wf_nil
    · exact ⟨List.pairwise_singleton _ _, by simp_all⟩
  | cons d m ih =>
    obtain ⟨b, w⟩ := d
    obtain ⟨hp, hr⟩ := hm
    have hp' := List.pairwise_cons.1 hp
    have hmw : Memory.wf m := ⟨hp'.2, fun c hc => hr c (by simp [hc])⟩
    unfold Memory.write
    split_ifs with h1 h2 h3 h4
    · exact ⟨hp, hr⟩
    · refine ⟨List.pairwise_cons.2 ⟨?_, hp⟩, ?_⟩
      · intro c hc
        rcases List.mem_cons.1 hc with rfl | hc
        · exact h1
        · exact Nat.lt_trans h1 (hp'.1 c hc)
      · intro c hc
        rcases List.mem_cons.1 hc with rfl | hc
        · exact ⟨by simpa using ha, by simpa using h2⟩
        · exact hr c hc
    · exact hmw
    · subst h3
      refine ⟨List.pairwise_cons.2 ⟨hp'.1, hp'.2⟩, ?_⟩
      intro c hc
      rcases List.mem_cons.1 hc with rfl | hc
      · exact ⟨by simpa using ha, by simpa using h4⟩
      · exact hr c (by simp [hc])
    · refine ⟨List.pairwise_cons.2 ⟨?_, (ih hmw).1⟩, ?_⟩
      · intro c hc
        rcases Memory.mem_write m a v c hc with hc | ⟨rfl, _⟩
        · exact hp'.1 c hc
        · simp only; omega
      · intro c hc
        rcases List.mem_cons.1 hc with rfl | hc
        · exact hr _ (by simp)
        · exact (ih hmw).2 c hc

/-- Read after write, on a memory whose addresses rise (R31, R36). -/
theorem Memory.read_write (m : Memory) (a : Nat) (v : Byte) (x : Nat)
    (hm : m.Pairwise (fun c d => c.1 < d.1)) : (m.write a v).read x = if x = a then v else m.read x := by
  induction m with
  | nil =>
    unfold Memory.write
    split_ifs <;> simp_all [Memory.read]
  | cons d m ih =>
    obtain ⟨b, w⟩ := d
    have hp := List.pairwise_cons.1 hm
    rcases Nat.lt_trichotomy a b with h | h | h
    · have hb : a ≠ b := by omega
      have ha : Memory.read m a = 0#8 := Memory.read_below m a (fun c hc => Nat.lt_trans h (hp.1 c hc))
      by_cases hv : v = 0#8 <;> by_cases hx : x = a <;> simp [Memory.write, Memory.read, h, hv, hx, hb, ha]
    · subst h
      have ha : Memory.read m a = 0#8 := Memory.read_below m a (fun c hc => hp.1 c hc)
      by_cases hv : v = 0#8 <;> by_cases hx : x = a <;> simp [Memory.write, Memory.read, hv, hx, ha]
    · have hb : b ≠ a := by omega
      have hn : ¬ a < b := by omega
      by_cases hx : x = b <;> simp [Memory.write, Memory.read, hn, hb.symm, hx, hb, ih hp.2]

end Sys2Proof.Machine
end

