-- ==== Sys2Proof/Laws/Ops.lean ====
section
/-! SUPPORT. What each shared operation of Ops.lean and Operands.lean answers: one lemma per operation, which proofs cite instead
of unfolding it. -/

namespace Sys2Proof.Machine

variable (s : State)

theorem byte_lt (v : Byte) : v.toNat < 256 := v.isLt

/-! Memory accesses (R31) -/

theorem memRead_ok (addr : Nat) (h : addr < 256) : memRead s addr = .ok (s.mem.read addr) := by
  simp [memRead, h]

theorem memRead_error (addr : Nat) (h : 256 ≤ addr) : memRead s addr = .error (.outOfBounds .mem addr) := by
  simp [memRead, Nat.not_lt.2 h]

theorem memWrite_ok (addr : Nat) (v : Byte) (h : addr < 256) :
    memWrite s addr v = .ok (s.setMem (s.mem.write addr v)) := by
  simp [memWrite, h]

theorem memWrite_error (addr : Nat) (v : Byte) (h : 256 ≤ addr) :
    memWrite s addr v = .error (.outOfBounds .mem addr) := by
  simp [memWrite, Nat.not_lt.2 h]

/-- Everything an answering write does: one cell, inside memory, and nothing else. -/
theorem memWrite_cases {t : State} {addr : Nat} {v : Byte} (h : memWrite s addr v = .ok t) :
    addr < 256 ∧ t = s.setMem (s.mem.write addr v) := by
  by_cases ha : addr < 256
  · rw [memWrite_ok s addr v ha] at h
    exact ⟨ha, by injection h with h; exact h.symm⟩
  · rw [memWrite_error s addr v (by omega)] at h
    cases h

/-- MemWrite keeps the canonical form. -/
theorem memWrite_keeps_wf {t : State} {addr : Nat} {v : Byte} (h : memWrite s addr v = .ok t)
    (hm : s.mem.wf) : t.mem.wf := by
  obtain ⟨ha, rfl⟩ := memWrite_cases s h
  exact Memory.write_wf s.mem addr v hm ha

/-! The stack (R102): neither operation can fail -/

theorem push_eq (v : Byte) : push s v = .ok ((decSp s).setMem (s.mem.write (s.sp - 1).toNat v)) := by
  have h : (decSp s).sp = s.sp - 1 := by simp [decSp]
  simp only [push, h]
  exact memWrite_ok (decSp s) _ v (byte_lt _)

theorem readTop_eq : readTop s = .ok (s.mem.read s.sp.toNat) := memRead_ok s _ (byte_lt _)

theorem pop_eq : pop s = .ok (s.mem.read s.sp.toNat, incSp s) := by
  simp only [pop, readTop_eq]
  rfl

theorem decSp_reg (r : RegIx) : (decSp s).reg r = if r = 7 then s.reg 7 - 1 else s.reg r := by
  by_cases h : r = 7 <;> simp [decSp, h, State.sp_eq, eq_comm]

theorem incSp_reg (r : RegIx) : (incSp s).reg r = if r = 7 then s.reg 7 + 1 else s.reg r := by
  by_cases h : r = 7 <;> simp [incSp, h, State.sp_eq, eq_comm]

/-! The end of a rule (R75, R124) -/

@[simp] theorem conclude_ok (t : State) : conclude s (.ok t) = .next t := rfl

@[simp] theorem conclude_error (f : FaultRecord) : conclude s (.error f) = .next (s.raise f) := rfl

/-! CALL's return address (R110) -/

theorem returnAddress_ok (pc0 : Nat) (h : pc0 + 2 ≤ 255) : returnAddress pc0 = .ok (BitVec.ofNat 8 (pc0 + 2)) := by
  simp [returnAddress]
  omega

theorem returnAddress_error (pc0 : Nat) (h : 255 < pc0 + 2) :
    returnAddress pc0 = .error (.outOfBounds .mem (pc0 + 2)) := by
  simp [returnAddress]
  omega

end Sys2Proof.Machine
end

