-- ==== Sys2Proof/Laws/Exec.lean ====
section
/-! SUPPORT. What each instruction answers, as one equation over the named updates: everything else about an instruction
follows from its equation and the lemmas of Laws/State.lean and Laws/Memory.lean. -/

namespace Sys2Proof.Machine

variable (s : State) (a b : RegIx)

theorem exec_ldi (imm : Byte) : exec (.ldi a imm) s = .next ((s.setReg a imm).setPc (s.pc + 3)) := rfl

theorem exec_prn : exec (.prn a) s = .next ((s.emit (s.reg a)).setPc (s.pc + 2)) := rfl

theorem exec_hlt : exec .hlt s = .next (s.halt.setPc (s.pc + 1)) := rfl

theorem exec_add : exec (.add a b) s = .next ((s.setReg a (s.reg a + s.reg b)).setPc (s.pc + 3)) := rfl

theorem exec_sub : exec (.sub a b) s = .next ((s.setReg a (s.reg a - s.reg b)).setPc (s.pc + 3)) := rfl

theorem exec_mul : exec (.mul a b) s = .next ((s.setReg a (s.reg a * s.reg b)).setPc (s.pc + 3)) := rfl

theorem exec_cmp : exec (.cmp a b) s = .next ((s.setFlag (s.reg a == s.reg b)).setPc (s.pc + 3)) := rfl

theorem exec_push : exec (.push a) s =
    .next (((decSp s).setMem (s.mem.write (s.sp - 1).toNat ((decSp s).reg a))).setPc (s.pc + 2)) := by
  simp only [exec, execPush, regOperand, push_eq]
  rfl

theorem exec_pop : exec (.pop a) s =
    .next ((incSp (s.setReg a (s.mem.read s.sp.toNat))).setPc (s.pc + 2)) := by
  simp only [exec, execPop, readTop_eq]
  rfl

theorem exec_call (h : s.pc + 2 ≤ 255) : exec (.call a) s =
    .next (((decSp s).setMem (s.mem.write (s.sp - 1).toNat (BitVec.ofNat 8 (s.pc + 2)))).setPc
      ((decSp s).reg a).toNat) := by
  simp only [exec, execCall, returnAddress_ok s.pc h, push_eq]
  rfl

theorem exec_call_fault (h : 255 < s.pc + 2) : exec (.call a) s =
    .next (s.raise (.outOfBounds .mem (s.pc + 2))) := by
  simp only [exec, execCall, returnAddress_error s.pc h]
  rfl

theorem exec_ret : exec .ret s = .next ((incSp s).setPc (s.mem.read s.sp.toNat).toNat) := by
  simp only [exec, execRet, pop_eq]
  rfl

theorem exec_jmp : exec (.jmp a) s = .next (s.setPc (s.reg a).toNat) := rfl

theorem exec_jeq : exec (.jeq a) s =
    .next (s.setPc (if s.flag = true then (s.reg a).toNat else s.pc + 2)) := rfl

theorem exec_jne : exec (.jne a) s =
    .next (s.setPc (if s.flag = true then s.pc + 2 else (s.reg a).toNat)) := by
  cases h : s.flag <;> simp [exec, execJne, jneTaken, jumpTarget, h]

/-- Everything an instruction that answers a next state has done: one case per instruction, and CALL's fault. -/
theorem exec_cases {i : Instr} {s t : State} (h : exec i s = .next t) :
   (∃ a v, i = .ldi a v ∧ t = ((s.setReg a v).setPc (s.pc + 3))) ∨
   (∃ a, i = .prn a ∧ t = ((s.emit (s.reg a)).setPc (s.pc + 2))) ∨
   (i = .hlt ∧ t = (s.halt.setPc (s.pc + 1))) ∨
   (∃ a b, i = .add a b ∧ t = ((s.setReg a (s.reg a + s.reg b)).setPc (s.pc + 3))) ∨
   (∃ a b, i = .sub a b ∧ t = ((s.setReg a (s.reg a - s.reg b)).setPc (s.pc + 3))) ∨
   (∃ a b, i = .mul a b ∧ t = ((s.setReg a (s.reg a * s.reg b)).setPc (s.pc + 3))) ∨
   (∃ a b, i = .cmp a b ∧ t = ((s.setFlag (s.reg a == s.reg b)).setPc (s.pc + 3))) ∨
   (∃ a, i = .push a ∧ t = (((decSp s).setMem (s.mem.write (s.sp - 1).toNat ((decSp s).reg a))).setPc (s.pc + 2))) ∨
   (∃ a, i = .pop a ∧ t = ((incSp (s.setReg a (s.mem.read s.sp.toNat))).setPc (s.pc + 2))) ∨
   (∃ a, i = .call a ∧ s.pc + 2 ≤ 255 ∧ t = (((decSp s).setMem (s.mem.write (s.sp - 1).toNat (BitVec.ofNat 8 (s.pc + 2)))).setPc
      ((decSp s).reg a).toNat)) ∨
   (∃ a, i = .call a ∧ 255 < s.pc + 2 ∧ t = s.raise (.outOfBounds .mem (s.pc + 2))) ∨
   (i = .ret ∧ t = ((incSp s).setPc (s.mem.read s.sp.toNat).toNat)) ∨
   (∃ a, i = .jmp a ∧ t = (s.setPc (s.reg a).toNat)) ∨
   (∃ a, i = .jeq a ∧ t = (s.setPc (if s.flag = true then (s.reg a).toNat else s.pc + 2))) ∨
   (∃ a, i = .jne a ∧ t = (s.setPc (if s.flag = true then s.pc + 2 else (s.reg a).toNat))) := by
  cases i with
  | ldi a v => rw [exec_ldi] at h; injection h with h; simp [← h]
  | prn a => rw [exec_prn] at h; injection h with h; simp [← h]
  | hlt => rw [exec_hlt] at h; injection h with h; simp [← h]
  | add a v => rw [exec_add] at h; injection h with h; simp [← h]
  | sub a v => rw [exec_sub] at h; injection h with h; simp [← h]
  | mul a v => rw [exec_mul] at h; injection h with h; simp [← h]
  | cmp a v => rw [exec_cmp] at h; injection h with h; simp [← h]
  | push a => rw [exec_push] at h; injection h with h; simp [← h]
  | pop a => rw [exec_pop] at h; injection h with h; simp [← h]
  | ret => rw [exec_ret] at h; injection h with h; simp [← h]
  | jmp a => rw [exec_jmp] at h; injection h with h; simp [← h]
  | jeq a => rw [exec_jeq] at h; injection h with h; simp [← h]
  | jne a => rw [exec_jne] at h; injection h with h; simp [← h]
  | call a =>
    by_cases hp : s.pc + 2 ≤ 255
    · rw [exec_call s a hp] at h; injection h with h; simp [← h]; left; omega
    · rw [exec_call_fault s a (by omega)] at h; injection h with h; simp [← h]; right; omega

end Sys2Proof.Machine
end

