-- ==== Sys2Proof/Laws/Interface.lean ====
section
/-! SUPPORT. The load keeps the canonical form, so that the state a run starts from has it. -/

namespace Sys2Proof.Machine

theorem loadFrom_cons (b : Byte) (bs : List Byte) (addr : Nat) (s : State) (h : addr < 256) :
    loadFrom (b :: bs) addr s = loadFrom bs (addr + 1) (s.setMem (s.mem.write addr b)) := by
  simp only [loadFrom, memWrite_ok s addr b h]
  rfl

theorem loadFrom_cons_error (b : Byte) (bs : List Byte) (addr : Nat) (s : State) (h : 256 ≤ addr) :
    loadFrom (b :: bs) addr s = .error (.outOfBounds .mem addr) := by
  simp only [loadFrom, memWrite_error s addr b h]
  rfl

/-- A load keeps the canonical form. -/
theorem loadFrom_keeps_wf (bs : List Byte) (addr : Nat) (s t : State) (h : loadFrom bs addr s = .ok t)
    (hm : s.mem.wf) : t.mem.wf := by
  induction bs generalizing addr s with
  | nil =>
    injection h with h
    exact h ▸ hm
  | cons b bs ih =>
    by_cases ha : addr < 256
    · rw [loadFrom_cons b bs addr s ha] at h
      exact ih (addr + 1) _ h (Memory.write_wf s.mem addr b hm ha)
    · rw [loadFrom_cons_error b bs addr s (by omega)] at h
      cases h

end Sys2Proof.Machine
end

