-- ==== Sys2Proof/Laws/PerInstr.lean ====
section
/-! SUPPORT. Laws of every instruction as syntax, one lemma per constructor. -/

namespace Sys2Proof.Laws.Structure

/-- The structure of an instruction's bytes (R50, R52, R53): as many bytes as its length, the opcode first, the opcode's
bits 7:6 its operand count and bit 4 its SETS_PC class. -/
def Statement (i : Instr) : Prop :=
  (encode i).length = i.length ∧ (encode i).head? = some (opc i.mnemonic) ∧
  nopsField (opc i.mnemonic) = i.operandBytes.length ∧ setsPcField (opc i.mnemonic) = i.mnemonic.setsPc

theorem ldi (a : RegIx) (imm : Byte) : Statement (.ldi a imm) := ⟨rfl, rfl, opc_nops .ldi, opc_setsPc .ldi⟩

theorem prn (a : RegIx) : Statement (.prn a) := ⟨rfl, rfl, opc_nops .prn, opc_setsPc .prn⟩

theorem hlt : Statement .hlt := ⟨rfl, rfl, opc_nops .hlt, opc_setsPc .hlt⟩

theorem add (a b : RegIx) : Statement (.add a b) := ⟨rfl, rfl, opc_nops .add, opc_setsPc .add⟩

theorem sub (a b : RegIx) : Statement (.sub a b) := ⟨rfl, rfl, opc_nops .sub, opc_setsPc .sub⟩

theorem mul (a b : RegIx) : Statement (.mul a b) := ⟨rfl, rfl, opc_nops .mul, opc_setsPc .mul⟩

theorem cmp (a b : RegIx) : Statement (.cmp a b) := ⟨rfl, rfl, opc_nops .cmp, opc_setsPc .cmp⟩

theorem push (a : RegIx) : Statement (.push a) := ⟨rfl, rfl, opc_nops .push, opc_setsPc .push⟩

theorem pop (a : RegIx) : Statement (.pop a) := ⟨rfl, rfl, opc_nops .pop, opc_setsPc .pop⟩

theorem call (a : RegIx) : Statement (.call a) := ⟨rfl, rfl, opc_nops .call, opc_setsPc .call⟩

theorem ret : Statement .ret := ⟨rfl, rfl, opc_nops .ret, opc_setsPc .ret⟩

theorem jmp (a : RegIx) : Statement (.jmp a) := ⟨rfl, rfl, opc_nops .jmp, opc_setsPc .jmp⟩

theorem jeq (a : RegIx) : Statement (.jeq a) := ⟨rfl, rfl, opc_nops .jeq, opc_setsPc .jeq⟩

theorem jne (a : RegIx) : Statement (.jne a) := ⟨rfl, rfl, opc_nops .jne, opc_setsPc .jne⟩

end Sys2Proof.Laws.Structure
end

