-- ==== Sys2Proof/Laws/Step.lean ====
section
/-! SUPPORT. Everything a step can do. -/

namespace Sys2Proof.Machine

variable (s : State)

theorem step_halted (h : s.status = .halted) : step s = .fault .halted := by
  simp [step, h]

theorem step_faulted (f : FaultRecord) (h : s.status = .faulted f) : step s = .fault (.aborted f) := by
  simp [step, h]

theorem step_raises (h : s.status = .running) {f : FaultRecord} (hf : fetchDecode s = .error f) :
    step s = .next (s.raise f) := by
  simp [step, h, hf]

theorem step_runs (h : s.status = .running) {i : Instr} (hi : fetchDecode s = .ok i) : step s = exec i s := by
  simp [step, h, hi]

/-- If a step answers a next state, the status was Running and the step either raised what fetching and decoding found, or ran
the decoded instruction. -/
theorem step_cases {t : State} (h : step s = .next t) :
    s.status = .running ∧ ((∃ f, fetchDecode s = .error f ∧ t = s.raise f) ∨
      ∃ i, fetchDecode s = .ok i ∧ exec i s = .next t) := by
  cases hs : s.status with
  | halted => rw [step_halted s hs] at h; cases h
  | faulted f => rw [step_faulted s f hs] at h; cases h
  | running =>
    refine ⟨rfl, ?_⟩
    cases hd : fetchDecode s with
    | error f =>
      rw [step_raises s hs hd] at h
      injection h with h
      exact .inl ⟨f, rfl, h.symm⟩
    | ok i =>
      rw [step_runs s hs hd] at h
      exact .inr ⟨i, rfl, h⟩

/-! The bytes fetched -/

/-- Beyond memory there is nothing to fetch (R71). -/
theorem fetchBytes_out (h : 256 ≤ s.pc) : fetchBytes s = [] := by
  have h0 : ¬ s.pc < 256 := by omega
  have h1 : ¬ s.pc + 1 < 256 := by omega
  have h2 : ¬ s.pc + 2 < 256 := by omega
  simp [fetchBytes, List.filter, h0, h1, h2]

/-- At the last cell there is one byte. -/
theorem fetchBytes_last (h : s.pc = 255) : fetchBytes s = [s.mem.read 255] := by
  simp [fetchBytes, h]

/-- At the last cell but one there are two bytes. -/
theorem fetchBytes_last_two (h : s.pc = 254) : fetchBytes s = [s.mem.read 254, s.mem.read 255] := by
  simp [fetchBytes, h]

/-- Elsewhere there are three bytes. -/
theorem fetchBytes_three (h : s.pc ≤ 253) :
    fetchBytes s = [s.mem.read s.pc, s.mem.read (s.pc + 1), s.mem.read (s.pc + 2)] := by
  have h0 : s.pc < 256 := by omega
  have h1 : s.pc + 1 < 256 := by omega
  have h2 : s.pc + 2 < 256 := by omega
  simp [fetchBytes, List.filter, h0, h1, h2]

/-- The opcode is the first byte fetched (R71). -/
theorem fetchBytes_head (h : s.pc < 256) : ∃ rest, fetchBytes s = s.mem.read s.pc :: rest := by
  rcases (by omega : s.pc = 255 ∨ s.pc = 254 ∨ s.pc ≤ 253) with h1 | h1 | h1
  · exact ⟨_, by rw [fetchBytes_last s h1, h1]⟩
  · exact ⟨_, by rw [fetchBytes_last_two s h1, h1]⟩
  · exact ⟨_, fetchBytes_three s h1⟩

/-! Placing an instruction -/

/-- Storing bytes keeps the canonical form. -/
theorem storeBytes_wf (bs : List Byte) (addr : Nat) (m : Memory) (hm : m.wf) : (storeBytes bs addr m).wf := by
  induction bs generalizing addr m with
  | nil => exact hm
  | cons b bs ih =>
    refine ih (addr + 1) _ ?_
    split
    · exact Memory.write_wf m addr b hm (by simpa using ‹addr < Config.memSize›)
    · exact hm

end Sys2Proof.Machine
end

