-- ==== Sys2Proof/Tests/Slice0.lean ====
section
/-! SUPPORT. Checks of the model against the spec's encodings (30_encoding.md) and its vectors (95_test_vectors.md), and for each
obligation with hypotheses a witness that meets them. -/

namespace Sys2Proof.Tests

open Sys2Proof.Machine

/-! Helpers -/

/-- The next state of an outcome, if it is one. -/
def next? (o : Host.Outcome State Fault Refusal) : Option State :=
  match o with
  | .next t => some t
  | .fault _ => none
  | .refused _ => none

/-- The vectors' start state: reset, with `pc` and the instruction bytes from `pc` on. -/
def start (pc : Nat) (bytes : List Byte) : State :=
  (State.reset.setPc pc).setMem (storeBytes bytes pc [])

/-- The state with a memory cell set. -/
def cell (s : State) (addr : Nat) (v : Byte) : State := s.setMem (s.mem.write addr v)

/-- One step of `s` gives exactly `t`. -/
abbrev StepsTo (s t : State) : Prop := next? (step s) = some t

/-- One step of `s` sets the fault record and nothing else. -/
abbrev Raises (s : State) (f : FaultRecord) : Prop := StepsTo s (s.raise f)

/-- The instruction the decoder reads from bytes, if any. -/
def read? (bytes : List Byte) : Option Instr :=
  match decode bytes with
  | .ok (i, _) => some i
  | .error _ => none

/-- Why the decoder rejects bytes, if it does. -/
def rejects? (bytes : List Byte) : Option DecodeError :=
  match decode bytes with
  | .ok _ => none
  | .error e => some e

/-! WellFormed: each check refuses an ill-formed term -/

/-- Two mnemonics with one opcode (R58). -/
theorem test_wf_refuses_equal_opcodes :
    ¬ OpcodeMap.Distinct (fun m => if m = .sub then 0xA0 else opc m) ∧
    ¬ OpcodeMap.WellFormed (fun m => if m = .sub then 0xA0 else opc m) := by decide

/-- HLT with the operand count 3, and with 1 (R52, R60). -/
theorem test_wf_refuses_wrong_operand_count :
    ¬ OpcodeMap.NopsOk (fun m => if m = .hlt then 0xC1 else opc m) .hlt ∧
    ¬ OpcodeMap.WellFormed (fun m => if m = .hlt then 0x41 else opc m) := by decide

/-- JMP without bit 4, and ADD with it (R53). -/
theorem test_wf_refuses_wrong_branch_class :
    ¬ OpcodeMap.SetsPcOk (fun m => if m = .jmp then 0x44 else opc m) .jmp ∧
    ¬ OpcodeMap.WellFormed (fun m => if m = .add then 0xB0 else opc m) := by decide

/-- The default map is accepted (D1). -/
theorem test_wf_accepts_the_default_opcodes : opc.WellFormed := by decide

/-- An instruction that runs beyond address 255 (R16, R73), and the last places that fit. -/
theorem test_wf_refuses_overhanging_instruction :
    ¬ (Instr.ldi 0 9).FitsAt 254 ∧ (Instr.ldi 0 9).FitsAt 253 ∧ ¬ (Instr.prn 0).FitsAt 255 ∧
    (Instr.prn 0).FitsAt 254 ∧ ¬ Instr.hlt.FitsAt 256 ∧ Instr.hlt.FitsAt 255 := by decide

/-- An image of 257 bytes (R161). -/
theorem test_wf_refuses_long_image :
    ¬ ImageWellFormed (List.replicate 257 0x01) ∧ ImageWellFormed (List.replicate 256 0x01) := by
  simp only [ImageWellFormed, List.length_replicate]
  decide

/-- A memory that is not in canonical form: out of order, doubled, a listed reset byte, an address outside. -/
theorem test_wf_refuses_memories :
    ¬ Memory.wf [(5, 1), (3, 1)] ∧ ¬ Memory.wf [(5, 1), (5, 2)] ∧ ¬ Memory.wf [(5, 0)] ∧ ¬ Memory.wf [(256, 1)] ∧
    Memory.wf [(3, 1), (255, 2)] := by decide

/-! Decode: one word for every instruction, written from R57's table and R50's formats -/

theorem test_decode_ldi : read? [0b10000010, 0b00000011, 0b11111111] = some (.ldi 3 255) := by decide
theorem test_decode_prn : read? [0b01000111, 0b00000111] = some (.prn 7) := by decide
theorem test_decode_hlt : read? [0b00000001] = some .hlt := by decide
theorem test_decode_add : read? [0b10100000, 0b00000010, 0b00000011] = some (.add 2 3) := by decide
theorem test_decode_sub : read? [0b10100001, 0b00000001, 0b00000010] = some (.sub 1 2) := by decide
theorem test_decode_mul : read? [0b10100010, 0b00000000, 0b00000110] = some (.mul 0 6) := by decide
theorem test_decode_cmp : read? [0b10100111, 0b00000101, 0b00000001] = some (.cmp 5 1) := by decide
theorem test_decode_push : read? [0b01000101, 0b00000100] = some (.push 4) := by decide
theorem test_decode_pop : read? [0b01000110, 0b00000011] = some (.pop 3) := by decide
theorem test_decode_call : read? [0b01010000, 0b00000001] = some (.call 1) := by decide
theorem test_decode_ret : read? [0b00010001] = some .ret := by decide
theorem test_decode_jmp : read? [0b01010100, 0b00000100] = some (.jmp 4) := by decide
theorem test_decode_jeq : read? [0b01010101, 0b00000010] = some (.jeq 2) := by decide
theorem test_decode_jne : read? [0b01010110, 0b00000110] = some (.jne 6) := by decide

/-- Bytes after the instruction are left over (R50). -/
theorem test_decode_leaves_the_rest :
    (match decode [0x45, 0x02, 0x46, 0x03] with | .ok (_, rest) => rest | .error _ => []) = [0x46, 0x03] := by decide

/-- Unknown opcodes are rejected by name, whatever follows (R59, R60; V98 to V110). -/
theorem test_decode_rejects_unknown_opcodes :
    ∀ op ∈ ([0x00, 0xFF, 0xA3, 0x83, 0x40, 0x10, 0x57, 0xC0, 0x02, 0xA8, 0x48, 0x13, 0x80] : List Byte),
      rejects? [op] = some (.unknownOpcode op) ∧ rejects? [op, 0x00, 0x01] = some (.unknownOpcode op) := by decide

/-- Register bytes above 7 are rejected with the whole byte (R55), operand a before operand b, and only once both are there
(R73). -/
theorem test_decode_rejects_registers :
    rejects? [0x82, 0x08, 0x01] = some (.badRegister 0x08) ∧ rejects? [0x46, 0xFF] = some (.badRegister 0xFF) ∧
    rejects? [0xA0, 0x00, 0x08] = some (.badRegister 0x08) ∧ rejects? [0xA0, 0x09, 0x0A] = some (.badRegister 0x09) ∧
    rejects? [0xA0, 0x09] = some (.truncated 2) ∧ rejects? [0xA0] = some (.truncated 1) ∧
    rejects? [0x47] = some (.truncated 1) ∧ rejects? [] = some (.truncated 0) := by decide

/-- Table words: the opcode is the low byte of the number, operand bytes without bits are zero. -/
theorem test_table_words :
    decodeTableWord 8 0x82 = some (.ldi 0 0) ∧ decodeTableWord 24 0xFF0382 = some (.ldi 3 255) ∧
    decodeTableWord 16 0x0750 = some (.call 7) ∧ decodeTableWord 8 0x11 = some .ret ∧ decodeTableWord 8 0x00 = none := by
  decide

/-- A placed table word is what the next step runs. -/
theorem test_with_fetch_word :
    StepsTo (State.reset.withFetchWord 24 0x080082)
      (((State.reset.withFetchWord 24 0x080082).setReg 0 8).setPc 3) := by decide

/-- The assembly line of the spec's first example (R62). -/
theorem test_asm : (Instr.ldi 0 8).asm = "LDI R0,8" ∧ (Instr.add 0 1).asm = "ADD R0,R1" ∧ Instr.hlt.asm = "HLT" := by
  decide

/-! Single steps, from the vectors of 95_test_vectors.md -/

theorem test_V1_ldi : StepsTo (start 0 [0x82, 0, 8]) (((start 0 [0x82, 0, 8]).setReg 0 0x08).setPc 3) := by decide

theorem test_V7_ldi_at_253 :
    StepsTo (start 253 [0x82, 1, 7]) (((start 253 [0x82, 1, 7]).setReg 1 0x07).setPc 256) := by decide

theorem test_V10_prn_sp : StepsTo (start 0 [0x47, 7]) (((start 0 [0x47, 7]).emit 244).setPc 2) := by decide

theorem test_V13_prn_bad_register : Raises (start 0 [0x47, 9]) (.outOfBounds .reg 9) := by decide

theorem test_V17_hlt_at_255 : StepsTo (start 255 [0x01]) ((start 255 [0x01]).halt.setPc 256) := by decide

theorem test_V20_add_wraps :
    let s := ((start 0 [0xA0, 0, 1]).setReg 0 0xC8).setReg 1 0x64
    StepsTo s ((s.setReg 0 0x2C).setPc 3) := by decide

theorem test_V28_add_truncated_with_bad_register : Raises (start 254 [0xA0, 9]) (.outOfBounds .mem 256) := by decide

theorem test_V30_sub_wraps :
    let s := ((start 0 [0xA1, 0, 1]).setReg 0 0x30).setReg 1 0x64
    StepsTo s ((s.setReg 0 0xCC).setPc 3) := by decide

theorem test_V35_sub_bad_register : Raises (start 0 [0xA1, 0, 12]) (.outOfBounds .reg 12) := by decide

theorem test_V37_mul_wraps :
    let s := ((start 0 [0xA2, 0, 1]).setReg 0 0x2C).setReg 1 0x64
    StepsTo s ((s.setReg 0 0x30).setPc 3) := by decide

theorem test_V40_mul_same_register :
    let s := (start 0 [0xA2, 2, 2]).setReg 2 0x11
    StepsTo s ((s.setReg 2 0x21).setPc 3) := by decide

theorem test_V46_cmp_clears :
    let s := (((start 0 [0xA7, 0, 1]).setReg 0 0x09).setReg 1 0x03).setFlag true
    StepsTo s ((s.setFlag false).setPc 3) := by decide

theorem test_V51_cmp_sp :
    let s := (start 0 [0xA7, 7, 0]).setReg 0 0xF4
    StepsTo s ((s.setFlag true).setPc 3) := by decide

theorem test_V55_push_wraps :
    let s := ((start 0 [0x45, 0]).setReg 0 0x55).setReg 7 0x00
    StepsTo s ((cell (s.setReg 7 0xFF) 0xFF 0x55).setPc 2) := by decide

theorem test_V56_push_sp :
    StepsTo (start 0 [0x45, 7]) ((cell ((start 0 [0x45, 7]).setReg 7 0xF3) 0xF3 0xF3).setPc 2) := by decide

theorem test_V63_pop_wraps :
    let s := cell ((start 0 [0x46, 0]).setReg 7 0xFF) 0xFF 0x66
    StepsTo s (((s.setReg 0 0x66).setReg 7 0x00).setPc 2) := by decide

theorem test_V64_pop_sp :
    let s := cell (start 0 [0x46, 7]) 0xF4 0x20
    StepsTo s ((s.setReg 7 0x21).setPc 2) := by decide

theorem test_V70_call_sp :
    StepsTo (start 0 [0x50, 7]) ((cell ((start 0 [0x50, 7]).setReg 7 0xF3) 0xF3 0x02).setPc 243) := by decide

theorem test_V72_call_at_254 : Raises ((start 254 [0x50, 0]).setReg 0 0x10) (.outOfBounds .mem 256) := by decide

theorem test_V78_ret :
    let s := cell ((start 19 [0x11]).setReg 7 0xF3) 0xF3 0x0A
    StepsTo s ((s.setReg 7 0xF4).setPc 10) := by decide

theorem test_V82_ret_at_255 :
    let s := cell ((start 255 [0x11]).setReg 7 0xF3) 0xF3 0x02
    StepsTo s ((s.setReg 7 0xF4).setPc 2) := by decide

theorem test_V84_jmp_sp : StepsTo (start 0 [0x54, 7]) ((start 0 [0x54, 7]).setPc 244) := by decide

theorem test_V86_jmp_bad_register : Raises (start 0 [0x54, 255]) (.outOfBounds .reg 255) := by decide

theorem test_V88_jeq_taken :
    let s := ((start 12 [0x55, 2]).setReg 2 0x28).setFlag true
    StepsTo s (s.setPc 40) := by decide

theorem test_V91_jeq_bad_register_not_taken : Raises (start 12 [0x55, 8]) (.outOfBounds .reg 8) := by decide

theorem test_V93_jne_taken :
    let s := (start 12 [0x56, 2]).setReg 2 0x28
    StepsTo s (s.setPc 40) := by decide

theorem test_V94_jne_not_taken :
    let s := ((start 12 [0x56, 2]).setReg 2 0x28).setFlag true
    StepsTo s (s.setPc 14) := by decide

theorem test_V74_call_bad_register_at_254 : Raises (start 254 [0x50, 8]) (.outOfBounds .reg 8) := by decide

theorem test_V98_zero_memory_faults : Raises State.reset (.unknownInstruction 0x00 0) := by decide

theorem test_V99_unknown_at_255 : Raises (start 255 [0xFF]) (.unknownInstruction 0xFF 255) := by decide

theorem test_V111_fetch_at_256 : Raises (start 256 []) (.outOfBounds .mem 256) := by decide

/-- No step from Halted or from Faulted (section 2.6). -/
theorem test_no_step_after_the_end :
    (next? (step State.reset.halt)).isNone = true ∧
    (next? (step (State.reset.raise (.unknownInstruction 0 0)))).isNone = true := by decide

/-- The lines of program P4's output (R162). -/
theorem test_render_P4 : render [44, 48, 204] = "44\n48\n204\n".toList := by decide

/-! Witnesses: for each obligation with hypotheses, states and operands that meet them, at the boundaries of each clause -/

/-- The byte is no opcode, as the obligations say it. -/
abbrev NoOpcode (v : Byte) : Prop := ∀ m, opc m ≠ v

theorem noOpcode_00 : NoOpcode 0x00 := by intro m; cases m <;> decide

theorem noOpcode_FF : NoOpcode 0xFF := by intro m; cases m <;> decide

/-- A memory in canonical form with the last cell listed. -/
def wfState : State := cell State.reset 255 7

theorem wfState_wf : wfState.mem.wf := by decide

/-- Halted, and Faulted. -/
def haltedState : State := State.reset.halt

def faultedState : State := State.reset.raise (.outOfBounds .reg 8)

theorem witness_ResetLeavesTheSpecsValues : (6 : RegIx) ≠ 7 ∧ (0 : RegIx) ≠ 7 := by decide

theorem witness_LoadWritesTheImageOnly :
    wfState.mem.wf ∧ ([] : List Byte).length ≤ 256 ∧ (List.replicate 256 (1 : Byte)).length ≤ 256 ∧
    255 < (List.replicate 256 (1 : Byte)).length ∧ (List.replicate 255 (1 : Byte)).length ≤ 255 :=
  ⟨wfState_wf, by decide, by rw [List.length_replicate], by rw [List.length_replicate]; decide,
    by rw [List.length_replicate]⟩

theorem witness_LongImageFailsToLoad : 256 < (List.replicate 257 (1 : Byte)).length := by
  rw [List.length_replicate]
  decide

theorem witness_BootHasInvariant : ∃ s, boot [0x82, 0, 8, 0x00, 0xFF] = .ok s := ⟨_, rfl⟩

theorem witness_RegistersHoldAnyByteWithoutAliasing : ∃ t, memWrite State.reset 255 0xFF = .ok t := ⟨_, rfl⟩

theorem witness_MemoryAccessesAreBoundsChecked : wfState.mem.wf ∧ 255 ≤ 255 ∧ 255 < 256 := ⟨wfState_wf, by decide, by decide⟩

/-- Two ways to write the same memory. -/
theorem witness_CanonicalMemoriesAreExtensional :
    let m : Memory := (Memory.write [] 3 7).write 5 1
    let n : Memory := (((Memory.write [] 5 1).write 255 9).write 3 7).write 255 0
    m.wf ∧ n.wf ∧ ∀ addr, addr ≤ 255 → m.read addr = n.read addr :=
  ⟨by decide, by decide, fun _ _ => rfl⟩

/-- Another value of the parameter OPC: HLT is 0x00 and RET 0x3F. -/
theorem witness_DecodeInvertsEncodeForAnyOpcodeMap :
    OpcodeMap.WellFormed (fun m => if m = .hlt then 0x00 else if m = .ret then 0x3F else opc m) := by decide

theorem witness_EncodeInvertsDecode : ∃ i rest, decodeWith opc [0xA0, 7, 0, 0x01] = .ok (i, rest) := ⟨_, _, rfl⟩

theorem witness_OpcodeFieldsGiveLengthAndBranchClass :
    (∀ i ∈ [Instr.ldi 7 255, .prn 0, .hlt, .cmp 0 7, .pop 7], (opc i.mnemonic).toNat / 16 % 2 = 0) ∧
    State.reset.flag = false ∧ (State.reset.setFlag true).flag = true := by decide

theorem witness_DecodingMatchesTheWholeOpcodeByte :
    opc .ret = opc .ret ∧ (∃ i tail, decode [0x11] = .ok (i, tail)) ∧ NoOpcode 0x00 :=
  ⟨rfl, ⟨_, _, rfl⟩, noOpcode_00⟩

/-- At address 0, and as the last instruction that fits, of each length. -/
theorem witness_StepRunsTheDecodedInstruction :
    (∀ s ∈ [start 0 [0x82, 7, 255], start 253 [0x82, 7, 255], start 254 [0x47, 7], start 255 [0x11]],
      s.status = .running) ∧
    decode (fetchBytes (start 0 [0x82, 7, 255])) = .ok (.ldi 7 255, []) ∧
    decode (fetchBytes (start 253 [0x82, 7, 255])) = .ok (.ldi 7 255, []) ∧
    decode (fetchBytes (start 254 [0x47, 7])) = .ok (.prn 7, []) ∧
    decode (fetchBytes (start 255 [0x11])) = .ok (.ret, []) :=
  ⟨by decide, rfl, rfl, rfl, rfl⟩

theorem witness_StepRunsTheEncodedInstruction :
    (start 253 [0xA7, 0, 7]).status = .running ∧ (start 253 [0xA7, 0, 7]).pc + (encode (.cmp 0 7)).length ≤ 256 ∧
    BytesAt (start 253 [0xA7, 0, 7]) 253 (encode (.cmp 0 7)) := by
  refine ⟨rfl, by decide, ?_⟩
  intro k h
  have h : k < 3 := h
  interval_cases k <;> rfl

/-- Every outcome of the pseudo-code: `pc` beyond memory, unknown opcode, truncated, bad registers, executed. -/
theorem witness_StepIsTheSpecsPseudoCode :
    ∀ s ∈ [start 300 [], start 256 [], start 255 [0xFF], start 255 [0x45], start 254 [0xA0, 9], start 0 [0x46, 255],
      start 0 [0xA0, 7, 8], start 254 [0x50, 0], start 0 [0x01]], s.status = .running := by decide

theorem witness_StepsExistExactlyWhileRunning :
    State.reset.status = .running ∧ haltedState.status = .halted ∧
    faultedState.status = .faulted (.outOfBounds .reg 8) ∧
    (fetchDecode (start 256 []) = .error (.outOfBounds .mem 256) ∧ (start 256 []).status = .running) :=
  ⟨by decide, by decide, by decide, rfl, rfl⟩

/-- Two states of the invariant that step: an instruction, and a fault at the highest `pc`. -/
theorem witness_EveryStepKeepsTheInvariant :
    (start 253 [0xA7, 0, 7]).Inv ∧ (∃ t, step (start 253 [0xA7, 0, 7]) = .next t) ∧
    (start 256 []).Inv ∧ ∃ t, step (start 256 []) = .next t :=
  ⟨⟨by decide, by decide, fun h => absurd rfl h, fun _ h => nomatch h⟩, ⟨_, rfl⟩,
    ⟨by decide, by decide, fun h => absurd rfl h, fun _ h => nomatch h⟩, ⟨_, rfl⟩⟩

theorem witness_OpcodeFetchBeyondMemoryFaults :
    (start 256 []).status = .running ∧ 255 < (start 256 []).pc ∧ (start 255 []).pc ≤ 255 := by decide

theorem witness_UnknownOpcodesFault :
    (start 255 [0xFF]).status = .running ∧ (start 255 [0xFF]).pc ≤ 255 ∧
    NoOpcode ((start 255 [0xFF]).mem.read (start 255 [0xFF]).pc) ∧
    State.reset.status = .running ∧ State.reset.pc ≤ 255 ∧ State.reset.mem.read State.reset.pc = 0 :=
  ⟨by decide, by decide, noOpcode_FF, by decide, by decide, by decide⟩

/-- A bad operand a of the last F1 instruction that fits, with index 8, and a bad operand b with index 255. -/
theorem witness_RegisterBytesAboveSevenFault :
    (let s := start 254 [0x46, 8];
      s.status = .running ∧ s.mem.read s.pc = opc .pop ∧ s.pc + 1 + Mnemonic.pop.operandCount ≤ 256 ∧
      1 ≤ Mnemonic.pop.operandCount ∧ 8 ≤ (s.mem.read (s.pc + 1)).toNat) ∧
    (let s := start 253 [0xA2, 7, 255];
      s.status = .running ∧ s.mem.read s.pc = opc .mul ∧ s.pc + 1 + Mnemonic.mul.operandCount ≤ 256 ∧
      Mnemonic.mul ∈ [Mnemonic.add, .sub, .mul, .cmp] ∧ (s.mem.read (s.pc + 1)).toNat ≤ 7 ∧
      8 ≤ (s.mem.read (s.pc + 2)).toNat) := by decide

theorem witness_FirstFaultInOrderIsReported :
    ((start 255 [0xFF]).status = .running ∧ (start 255 [0xFF]).pc = 255 ∧ NoOpcode ((start 255 [0xFF]).mem.read 255)) ∧
    (let s := start 254 [0xA0, 9];
      s.status = .running ∧ s.pc ≤ 255 ∧ s.mem.read s.pc = opc .add ∧ 256 < s.pc + 1 + Mnemonic.add.operandCount) ∧
    (let s := start 255 [0x45];
      s.status = .running ∧ s.pc ≤ 255 ∧ s.mem.read s.pc = opc .push ∧ 256 < s.pc + 1 + Mnemonic.push.operandCount) ∧
    (let s := start 253 [0xA0, 9, 10];
      s.status = .running ∧ s.pc ≤ 253 ∧ s.mem.read s.pc = opc .add ∧ Mnemonic.add.bIsRegister = true ∧
      8 ≤ (s.mem.read (s.pc + 1)).toNat ∧ 8 ≤ (s.mem.read (s.pc + 2)).toNat) ∧
    (let s := start 254 [0x50, 8];
      s.status = .running ∧ s.pc = 254 ∧ s.mem.read 254 = opc .call ∧ 8 ≤ (s.mem.read 255).toNat) ∧
    (let s := start 254 [0x50, 7];
      s.status = .running ∧ s.pc = 254 ∧ s.mem.read 254 = opc .call ∧ (s.mem.read 255).toNat ≤ 7) :=
  ⟨⟨by decide, by decide, noOpcode_FF⟩, by decide, by decide, by decide, by decide, by decide⟩

theorem witness_FaultingStepsChangeOnlyTheRecord :
    ∃ t, step (start 254 [0x50, 7]) = .next t ∧ t.fault = some (.outOfBounds .mem 256) := ⟨_, rfl, rfl⟩

theorem witness_OnlyCallCanFaultOnceReached :
    (∀ a, Instr.ret ≠ .call a) ∧ (start 253 []).fault = none ∧ (start 253 []).pc + 2 ≤ 255 ∧
    (start 254 []).fault = none ∧ 255 < (start 254 []).pc + 2 :=
  ⟨fun _ => nofun, by decide, by decide, by decide, by decide⟩

theorem witness_FaultsAreNeverCleared :
    faultedState.status = .faulted (.outOfBounds .reg 8) ∧ faultedState.fault ≠ none ∧
    ∃ t, exec .ret faultedState = .next t := ⟨by decide, by decide, _, rfl⟩

theorem witness_NextPcTable :
    Instr.cmp 0 7 ∈ [Instr.ldi 0 1, .add 0 7, .sub 0 7, .mul 0 7, .cmp 0 7] ∧ Instr.pop 7 ∈ [Instr.prn 7, .push 7, .pop 7] ∧
    (start 253 [0x50, 7]).pc ≤ 253 ∧ (start 253 [0x50, 7]).status = .running ∧
    fetchDecode (start 253 [0x50, 7]) = .ok (.call 7) ∧
    ∃ t, step (start 254 [0x50, 7]) = .next t ∧ t.fault ≠ none :=
  ⟨by decide, by decide, by decide, by decide, rfl, _, rfl, nofun⟩

/-- Two states that differ only in a register that SUB R1,R2 does not read. -/
theorem witness_RegisterReadAndWriteTable :
    let s := State.reset
    let u := State.reset.setReg 3 9
    u = { s with regs := u.regs } ∧ (∀ r ∈ readRegs s.flag (.sub 1 2), u.reg r = s.reg r) ∧
    (∃ t, exec (.sub 1 2) s = .next t) ∧ ∃ v, exec (.sub 1 2) u = .next v :=
  ⟨rfl, by decide, ⟨_, rfl⟩, ⟨_, rfl⟩⟩

theorem witness_FlagIsSetByCmpAndReadByJumpsOnly :
    ((∀ a b, Instr.ret ≠ .cmp a b) ∧ (∀ a, Instr.ret ≠ .jeq a) ∧ (∀ a, Instr.ret ≠ .jne a) ∧
      ∃ t, exec .ret (State.reset.setFlag true) = .next t) ∧
    ∃ t, step (start 253 [0xA7, 5, 5]) = .next t ∧ t.flag ≠ (start 253 [0xA7, 5, 5]).flag :=
  ⟨⟨fun _ _ => nofun, fun _ => nofun, fun _ => nofun, _, rfl⟩, _, rfl, by decide⟩

theorem witness_RunningIsClearedByHltOnly :
    (∃ t, step (start 255 [0x01]) = .next t ∧ t.running = false ∧ t.status = .halted) ∧
    (∃ t, step (start 255 [0x11]) = .next t ∧ t.running = true) ∧
    (haltedState.running = false ∧ ∃ t, exec (.push 0) haltedState = .next t) ∧
    (Instr.ret ≠ .hlt ∧ ∃ t, exec .ret State.reset = .next t) :=
  ⟨⟨_, rfl, rfl, rfl⟩, ⟨_, rfl, rfl⟩, ⟨rfl, _, rfl⟩, nofun, _, rfl⟩

theorem witness_OutputIsAppendedByPrnOnly :
    (∃ t, step (start 254 [0x47, 7]) = .next t) ∧
    ((∀ a, fetchDecode (start 255 [0x01]) ≠ .ok (.prn a)) ∧ ∃ t, step (start 255 [0x01]) = .next t) ∧
    ∃ t, exec (.prn 7) (State.reset.emit 1) = .next t :=
  ⟨⟨_, rfl⟩, ⟨fun _ => nofun, _, rfl⟩, _, rfl⟩

theorem witness_OnlyStackInstructionsReachMemory :
    ((∀ a, Instr.ret ≠ .push a) ∧ (∀ a, Instr.ret ≠ .call a) ∧ ∃ t, exec .ret wfState = .next t) ∧
    (wfState.mem.wf ∧ ∃ t, exec (.push 7) wfState = .next t) ∧
    ((∀ a, Instr.push 0 ≠ .pop a) ∧ Instr.push 0 ≠ .ret ∧ ∃ t, exec (.push 0) wfState = .next t) ∧
    Memory.read [] wfState.sp.toNat = wfState.mem.read wfState.sp.toNat :=
  ⟨⟨fun _ => nofun, fun _ => nofun, _, rfl⟩, ⟨wfState_wf, _, rfl⟩, ⟨fun _ => nofun, nofun, _, rfl⟩, by decide⟩

/-- The hypotheses of `FetchFaultsF1` can be met: truncated at 255, and a bad register at the last place that fits. -/
abbrev F1Witness (m : Mnemonic) : Prop :=
  ((start 255 [opc m]).status = .running ∧ (start 255 [opc m]).mem.read (start 255 [opc m]).pc = opc m ∧
    (start 255 [opc m]).pc = 255) ∧
  ((start 254 [opc m, 8]).status = .running ∧ (start 254 [opc m, 8]).mem.read (start 254 [opc m, 8]).pc = opc m ∧
    (start 254 [opc m, 8]).pc ≤ 254 ∧ 8 ≤ ((start 254 [opc m, 8]).mem.read ((start 254 [opc m, 8]).pc + 1)).toNat)

/-- Those of `FetchFaultsRegImm`: truncated at 254 and at 255, and a bad register a. -/
abbrev RegImmWitness (m : Mnemonic) : Prop :=
  ((start 254 [opc m, 9]).status = .running ∧ (start 254 [opc m, 9]).mem.read (start 254 [opc m, 9]).pc = opc m ∧
    (start 254 [opc m, 9]).pc = 254) ∧
  ((start 255 [opc m]).status = .running ∧ (start 255 [opc m]).mem.read (start 255 [opc m]).pc = opc m ∧
    (start 255 [opc m]).pc = 255) ∧
  ((start 253 [opc m, 8, 9]).status = .running ∧ (start 253 [opc m, 8, 9]).mem.read (start 253 [opc m, 8, 9]).pc = opc m ∧
    (start 253 [opc m, 8, 9]).pc ≤ 253 ∧
    8 ≤ ((start 253 [opc m, 8, 9]).mem.read ((start 253 [opc m, 8, 9]).pc + 1)).toNat)

/-- Those of `FetchFaultsRegReg`: also a bad register b after a good register a. -/
abbrev RegRegWitness (m : Mnemonic) : Prop :=
  RegImmWitness m ∧
  ((start 253 [opc m, 7, 8]).status = .running ∧ (start 253 [opc m, 7, 8]).mem.read (start 253 [opc m, 7, 8]).pc = opc m ∧
    (start 253 [opc m, 7, 8]).pc ≤ 253 ∧
    ((start 253 [opc m, 7, 8]).mem.read ((start 253 [opc m, 7, 8]).pc + 1)).toNat < 8 ∧
    8 ≤ ((start 253 [opc m, 7, 8]).mem.read ((start 253 [opc m, 7, 8]).pc + 2)).toNat)

theorem witness_LdiLoadsTheImmediate : RegImmWitness .ldi := by decide

theorem witness_PrnEmitsTheRegister : F1Witness .prn := by decide

theorem witness_HltStopsTheMachine :
    (start 255 [0x01]).status = .running ∧ (start 255 [0x01]).pc ≤ 255 ∧ (start 255 [0x01]).mem.read 255 = 0x01 := by decide

theorem witness_AddWritesTheSum : RegRegWitness .add := by decide

theorem witness_SubWritesTheDifference : RegRegWitness .sub := by decide

theorem witness_MulWritesTheLowProduct : RegRegWitness .mul := by decide

theorem witness_CmpSetsTheFlagOnEquality : RegRegWitness .cmp := by decide

theorem witness_PushStoresBelowTheStackPointer : wfState.mem.wf ∧ (0 : RegIx) ≠ 7 ∧ F1Witness .push :=
  ⟨wfState_wf, by decide, by decide⟩

theorem witness_PopLoadsFromTheStackPointer : (6 : RegIx) ≠ 7 ∧ (7 : RegIx) = 7 ∧ F1Witness .pop := by decide

/-- The largest return address, 255, and the first that is no byte, 256. -/
theorem witness_CallPushesTheReturnAddress :
    ((start 253 [0x50, 0]).mem.wf ∧ (start 253 [0x50, 0]).pc + 2 ≤ 255 ∧ (0 : RegIx) ≠ 7) ∧
    255 < (start 254 [0x50, 0]).pc + 2 ∧ F1Witness .call := by decide

theorem witness_RetPopsThePc :
    (start 255 [0x11]).status = .running ∧ (start 255 [0x11]).pc ≤ 255 ∧ (start 255 [0x11]).mem.read 255 = 0x11 := by decide

theorem witness_JmpGoesToTheRegister : F1Witness .jmp := by decide

theorem witness_JeqJumpsOnFlagOne :
    (State.reset.setFlag true).flag = true ∧ State.reset.flag = false ∧ F1Witness .jeq := by decide

theorem witness_JneJumpsOnFlagZero :
    State.reset.flag = false ∧ (State.reset.setFlag true).flag = true ∧ F1Witness .jne := by decide

theorem witness_AluResultsAreModulo256 :
    ((State.reset.reg 1).toNat ≤ (State.reset.reg 0).toNat) ∧ (State.reset.reg 0).toNat < (State.reset.reg 7).toNat ∧
    AluOp.sub ≠ .cmp := by decide

theorem witness_StackIsFullDescending : wfState.mem.wf := wfState_wf

/-- PUSH R0 then POP R6, from stack pointer 0. -/
theorem witness_PushThenPopRestoresTheStackPointer :
    (wfState.setReg 7 0).mem.wf ∧ (0 : RegIx) ≠ 7 ∧ (6 : RegIx) ≠ 7 ∧
    ∃ t u, exec (.push 0) (wfState.setReg 7 0) = .next t ∧ exec (.pop 6) t = .next u :=
  ⟨by decide, by decide, by decide, _, _, rfl, rfl⟩

/-- CALL from 253, and a RET in a state that kept the stack. -/
theorem witness_RetReturnsAfterTheCall :
    (start 253 []).mem.wf ∧ (start 253 []).pc + 2 ≤ 255 ∧
    ∃ t u v, exec (.call 1) (start 253 []) = .next t ∧ u = (t.emit 5).setPc 9 ∧ u.sp = t.sp ∧
      u.mem.read u.sp.toNat = t.mem.read t.sp.toNat ∧ exec .ret u = .next v :=
  ⟨by decide, by decide, _, _, _, rfl, rfl, rfl, rfl, rfl⟩

/-- Equal registers, and unequal ones. -/
theorem witness_CmpThenJumpTestsEquality :
    (State.reset.reg 0 = State.reset.reg 1 ∧
      ∃ t u v, exec (.cmp 0 1) State.reset = .next t ∧ exec (.jeq 2) t = .next u ∧ exec (.jne 2) t = .next v) ∧
    (State.reset.reg 0 ≠ State.reset.reg 7 ∧
      ∃ t u v, exec (.cmp 0 7) State.reset = .next t ∧ exec (.jeq 2) t = .next u ∧ exec (.jne 2) t = .next v) :=
  ⟨⟨by decide, _, _, _, rfl, rfl, rfl⟩, by decide, _, _, _, rfl, rfl, rfl⟩

/-- Program P7's PUSH, and a CALL of the cell that holds its return address (V70). -/
theorem witness_StoredByteIsFetchedNext :
    (let s := (start 6 [0x45, 0]).setReg 7 9;
      s.mem.wf ∧ ∃ t, exec (.push 0) s = .next t ∧ t.fault = none ∧ t.pc = pushAddr s) ∧
    (let s := start 0 [0x50, 7];
      s.mem.wf ∧ ∃ t, exec (.call 7) s = .next t ∧ t.fault = none ∧ t.pc = pushAddr s) :=
  ⟨⟨by decide, _, rfl, rfl, rfl⟩, by decide, _, rfl, rfl, rfl⟩

theorem witness_StackPointerWrapsWithoutFault :
    ((wfState.setReg 7 0x00).mem.wf ∧ (wfState.setReg 7 0x00).sp = 0x00) ∧ (wfState.setReg 7 0xFF).sp = 0xFF := by decide

theorem witness_RenderedLinesReadBack : ([0] : List Nat).head? = some 0 ∧ 9 ≤ 9 := by decide

end Sys2Proof.Tests
end

/-! Family 10_state: the registers an instruction reads and writes (R13), and the flag (R18). -/

namespace Sys2Proof.Machine

/-! The write frame of R13 -/

theorem sameRegsExcept_setReg (s : State) (r : RegIx) (x : Byte) : SameRegsExcept [r] s (s.setReg r x) := by
  intro q hq
  rw [State.setReg_reg, if_neg (by simpa [eq_comm] using hq)]

theorem sameRegsExcept_decSp (s : State) : SameRegsExcept [Config.spIndex] s (decSp s) :=
  sameRegsExcept_setReg s Config.spIndex _

theorem sameRegsExcept_incSp (s : State) : SameRegsExcept [Config.spIndex] s (incSp s) :=
  sameRegsExcept_setReg s Config.spIndex _

theorem SameRegsExcept.trans {ds es : List RegIx} {s t u : State} (hst : SameRegsExcept ds s t)
    (htu : SameRegsExcept es t u) : SameRegsExcept (ds ++ es) s u := by
  intro r hr
  rw [List.mem_append, not_or] at hr
  exact (htu r hr.2).trans (hst r hr.1)

/-- The updates of the other fields keep the register file, so each case is the frame of the register updates alone. -/
theorem exec_sameRegsExcept_writtenRegs {i : Instr} {s t : State} (h : exec i s = .next t) :
    SameRegsExcept (writtenRegs i) s t := by
  obtain ⟨a, imm, rfl, rfl⟩ | ⟨a, rfl, rfl⟩ | ⟨rfl, rfl⟩ | ⟨a, b, rfl, rfl⟩ | ⟨a, b, rfl, rfl⟩ | ⟨a, b, rfl, rfl⟩ |
    ⟨a, b, rfl, rfl⟩ | ⟨a, rfl, rfl⟩ | ⟨a, rfl, rfl⟩ | ⟨a, rfl, -, rfl⟩ | ⟨a, rfl, -, rfl⟩ | ⟨rfl, rfl⟩ | ⟨a, rfl, rfl⟩ |
    ⟨a, rfl, rfl⟩ | ⟨a, rfl, rfl⟩ := exec_cases h
  · exact sameRegsExcept_setReg s a imm
  · exact fun _ _ => rfl
  · exact fun _ _ => rfl
  · exact sameRegsExcept_setReg s a _
  · exact sameRegsExcept_setReg s a _
  · exact sameRegsExcept_setReg s a _
  · exact fun _ _ => rfl
  · exact sameRegsExcept_decSp s
  · exact (sameRegsExcept_setReg s a _).trans (sameRegsExcept_incSp _)
  · exact sameRegsExcept_decSp s
  · exact fun _ _ => rfl
  · exact sameRegsExcept_incSp s
  · exact fun _ _ => rfl
  · exact fun _ _ => rfl
  · exact fun _ _ => rfl

/-! The read dependence of R13: two states that agree on some registers and on everything but registers -/

/-- `u` has the registers `ds` of `s`, and every field of `s` but the register file. -/
def AgreeOn (ds : List RegIx) (s u : State) : Prop := u = { s with regs := u.regs } ∧ ∀ r ∈ ds, u.reg r = s.reg r

section
variable {ds es : List RegIx} {s u : State}

namespace AgreeOn

theorem mono (h : AgreeOn ds s u) (hes : ∀ r ∈ es, r ∈ ds) : AgreeOn es s u := ⟨h.1, fun r hr => h.2 r (hes r hr)⟩

theorem nil (h : AgreeOn ds s u) : AgreeOn [] s u := h.mono nofun

theorem first {r : RegIx} (h : AgreeOn (r :: ds) s u) : AgreeOn [r] s u :=
  h.mono fun _ hq => List.mem_singleton.1 hq ▸ .head _

theorem reg (h : AgreeOn ds s u) {r : RegIx} (hr : r ∈ ds) : u.reg r = s.reg r := h.2 r hr

theorem sp (h : AgreeOn ds s u) (h7 : Config.spIndex ∈ ds) : u.sp = s.sp := h.reg h7

theorem pc (h : AgreeOn ds s u) : u.pc = s.pc := (congrArg State.pc h.1 :)

theorem flag (h : AgreeOn ds s u) : u.flag = s.flag := (congrArg State.flag h.1 :)

theorem mem (h : AgreeOn ds s u) : u.mem = s.mem := (congrArg State.mem h.1 :)

theorem setPc (h : AgreeOn ds s u) (n : Nat) : AgreeOn ds (s.setPc n) (u.setPc n) := ⟨congrArg (State.setPc · n) h.1, h.2⟩

theorem setFlag (h : AgreeOn ds s u) (b : Bool) : AgreeOn ds (s.setFlag b) (u.setFlag b) :=
  ⟨congrArg (State.setFlag · b) h.1, h.2⟩

theorem halt (h : AgreeOn ds s u) : AgreeOn ds s.halt u.halt := ⟨congrArg State.halt h.1, h.2⟩

theorem emit (h : AgreeOn ds s u) (x : Byte) : AgreeOn ds (s.emit x) (u.emit x) := ⟨congrArg (State.emit · x) h.1, h.2⟩

theorem setMem (h : AgreeOn ds s u) (m : Memory) : AgreeOn ds (s.setMem m) (u.setMem m) :=
  ⟨congrArg (State.setMem · m) h.1, h.2⟩

theorem raise (h : AgreeOn ds s u) (f : FaultRecord) : AgreeOn ds (s.raise f) (u.raise f) :=
  ⟨congrArg (State.raise · f) h.1, h.2⟩

/-- Writing one value to a register adds it to the registers agreed on. -/
theorem setReg (h : AgreeOn ds s u) (r : RegIx) (x : Byte) : AgreeOn (r :: ds) (s.setReg r x) (u.setReg r x) := by
  refine ⟨congrArg (fun w => { w with regs := (u.setReg r x).regs }) h.1, fun q hq => ?_⟩
  rw [State.setReg_reg, State.setReg_reg]
  split
  case isTrue => rfl
  case isFalse hne => exact h.reg ((List.mem_cons.1 hq).resolve_left (Ne.symm hne))

theorem decSp (h : AgreeOn ds s u) (h7 : Config.spIndex ∈ ds) : AgreeOn ds (decSp s) (decSp u) := by
  rw [Machine.decSp, Machine.decSp, h.sp h7]
  exact (h.setReg _ _).mono fun r hr => .tail _ hr

theorem incSp (h : AgreeOn ds s u) (h7 : Config.spIndex ∈ ds) : AgreeOn ds (incSp s) (incSp u) := by
  rw [Machine.incSp, Machine.incSp, h.sp h7]
  exact (h.setReg _ _).mono fun r hr => .tail _ hr

/-- ADD, SUB and MUL: one byte operation on two registers agreed on, its result to the first of them (R94). -/
theorem setReg_operation {a b : RegIx} (h : AgreeOn [a, b] s u) (op : Byte → Byte → Byte) :
    AgreeOn [a] ((s.setReg a (op (s.reg a) (s.reg b))).setPc (s.pc + 3))
      ((u.setReg a (op (u.reg a) (u.reg b))).setPc (u.pc + 3)) := by
  rw [h.pc, h.reg (.head _), h.reg (.tail _ (.head _))]
  exact (h.nil.setReg a _).setPc _

end AgreeOn

/-- Each rule computes its operands and its next `pc` from what the two states agree on, so it does the same updates in both. -/
theorem exec_agreeOn_writtenRegs {i : Instr} {t : State} (h : AgreeOn (readRegs s.flag i) s u) (ht : exec i s = .next t) :
    ∃ v, exec i u = .next v ∧ AgreeOn (writtenRegs i) t v := by
  obtain ⟨a, imm, rfl, rfl⟩ | ⟨a, rfl, rfl⟩ | ⟨rfl, rfl⟩ | ⟨a, b, rfl, rfl⟩ | ⟨a, b, rfl, rfl⟩ | ⟨a, b, rfl, rfl⟩ |
    ⟨a, b, rfl, rfl⟩ | ⟨a, rfl, rfl⟩ | ⟨a, rfl, rfl⟩ | ⟨a, rfl, hpc, rfl⟩ | ⟨a, rfl, hpc, rfl⟩ | ⟨rfl, rfl⟩ | ⟨a, rfl, rfl⟩ |
    ⟨a, rfl, rfl⟩ | ⟨a, rfl, rfl⟩ := exec_cases ht
  · refine ⟨_, exec_ldi u a imm, ?_⟩
    rw [h.pc]
    exact (h.setReg a imm).setPc _
  · refine ⟨_, exec_prn u a, ?_⟩
    rw [h.pc, h.reg (.head _)]
    exact ((h.emit _).setPc _).nil
  · refine ⟨_, exec_hlt u, ?_⟩
    rw [h.pc]
    exact h.halt.setPc _
  · exact ⟨_, exec_add u a b, h.setReg_operation (· + ·)⟩
  · exact ⟨_, exec_sub u a b, h.setReg_operation (· - ·)⟩
  · exact ⟨_, exec_mul u a b, h.setReg_operation (· * ·)⟩
  · refine ⟨_, exec_cmp u a b, ?_⟩
    rw [h.pc, h.reg (.head _), h.reg (.tail _ (.head _))]
    exact ((h.setFlag _).setPc _).nil
  · refine ⟨_, exec_push u a, ?_⟩
    have hd := h.decSp (.head _)
    rw [h.pc, h.mem, h.sp (.head _), hd.reg (.tail _ (.head _))]
    exact ((hd.setMem _).setPc _).first
  · refine ⟨_, exec_pop u a, ?_⟩
    rw [h.pc, h.mem, h.sp (.head _)]
    exact ((h.setReg a _).incSp (.tail _ (.head _))).setPc _
  · refine ⟨_, exec_call u a (h.pc ▸ hpc), ?_⟩
    have hd := h.decSp (.head _)
    rw [h.pc, h.mem, h.sp (.head _), hd.reg (.tail _ (.head _))]
    exact ((hd.setMem _).setPc _).first
  · refine ⟨_, exec_call_fault u a (h.pc ▸ hpc), ?_⟩
    rw [h.pc]
    exact (h.raise _).first
  · refine ⟨_, exec_ret u, ?_⟩
    rw [h.mem, h.sp (.head _)]
    exact (h.incSp (.head _)).setPc _
  · refine ⟨_, exec_jmp u a, ?_⟩
    rw [h.reg (.head _)]
    exact (h.setPc _).nil
  · refine ⟨_, exec_jeq u a, ?_⟩
    have htarget : s.flag = true → (u.reg a).toNat = (s.reg a).toNat := fun hf =>
      congrArg _ (h.reg (by simp [readRegs, hf]))
    rw [h.flag, h.pc, ite_congr rfl htarget fun _ => rfl]
    exact (h.setPc _).nil
  · refine ⟨_, exec_jne u a, ?_⟩
    have htarget : ¬s.flag = true → (u.reg a).toNat = (s.reg a).toNat := fun hf =>
      congrArg _ (h.reg (by simp [readRegs, hf]))
    rw [h.flag, h.pc, ite_congr rfl (fun _ => rfl) htarget]
    exact (h.setPc _).nil

end

/-- Settles O29: the write frame is one frame per register update, the read dependence one agreement per update. -/
theorem registerReadAndWriteTable : Obligations.RegisterReadAndWriteTable := by
  refine ⟨fun i s t ht => exec_sameRegsExcept_writtenRegs ht, fun i s u t v hu hr ht hv => ?_⟩
  obtain ⟨v', hv', hagree⟩ := exec_agreeOn_writtenRegs ⟨hu, hr⟩ ht
  cases hv.symm.trans hv'
  exact hagree

/-! The flag (R18) -/

theorem exec_flag {i : Instr} {s t : State} (hcmp : ∀ a b, i ≠ .cmp a b) (h : exec i s = .next t) : t.flag = s.flag := by
  obtain ⟨a, imm, rfl, rfl⟩ | ⟨a, rfl, rfl⟩ | ⟨rfl, rfl⟩ | ⟨a, b, rfl, rfl⟩ | ⟨a, b, rfl, rfl⟩ | ⟨a, b, rfl, rfl⟩ |
    ⟨a, b, rfl, rfl⟩ | ⟨a, rfl, rfl⟩ | ⟨a, rfl, rfl⟩ | ⟨a, rfl, -, rfl⟩ | ⟨a, rfl, -, rfl⟩ | ⟨rfl, rfl⟩ | ⟨a, rfl, rfl⟩ |
    ⟨a, rfl, rfl⟩ | ⟨a, rfl, rfl⟩ := exec_cases h
  on_goal 7 => exact absurd rfl (hcmp a b)
  all_goals rfl

theorem exec_setFlag {i : Instr} {s t : State} (f : Bool) (hcmp : ∀ a b, i ≠ .cmp a b) (hjeq : ∀ a, i ≠ .jeq a)
    (hjne : ∀ a, i ≠ .jne a) (h : exec i s = .next t) : exec i (s.setFlag f) = .next (t.setFlag f) := by
  obtain ⟨a, imm, rfl, rfl⟩ | ⟨a, rfl, rfl⟩ | ⟨rfl, rfl⟩ | ⟨a, b, rfl, rfl⟩ | ⟨a, b, rfl, rfl⟩ | ⟨a, b, rfl, rfl⟩ |
    ⟨a, b, rfl, rfl⟩ | ⟨a, rfl, rfl⟩ | ⟨a, rfl, rfl⟩ | ⟨a, rfl, hpc, rfl⟩ | ⟨a, rfl, hpc, rfl⟩ | ⟨rfl, rfl⟩ | ⟨a, rfl, rfl⟩ |
    ⟨a, rfl, rfl⟩ | ⟨a, rfl, rfl⟩ := exec_cases h
  · exact exec_ldi _ a imm
  · exact exec_prn _ a
  · exact exec_hlt _
  · exact exec_add _ a b
  · exact exec_sub _ a b
  · exact exec_mul _ a b
  · exact absurd rfl (hcmp a b)
  · exact exec_push _ a
  · exact exec_pop _ a
  · exact exec_call _ a hpc
  · exact exec_call_fault _ a hpc
  · exact exec_ret _
  · exact exec_jmp _ a
  · exact absurd rfl (hjeq a)
  · exact absurd rfl (hjne a)

theorem exec_cmp_setFlag (a b : RegIx) (s : State) (f : Bool) : exec (.cmp a b) (s.setFlag f) = exec (.cmp a b) s :=
  (exec_cmp (s.setFlag f) a b).trans (exec_cmp s a b).symm

theorem step_changes_flag_cmp {s t : State} (h : step s = .next t) (hne : t.flag ≠ s.flag) :
    ∃ a b, fetchDecode s = .ok (.cmp a b) := by
  obtain ⟨-, ⟨f, -, rfl⟩ | ⟨i, hi, hexec⟩⟩ := step_cases s h
  · exact absurd rfl hne
  · by_contra hno
    exact hne (exec_flag (fun a b hcmp => hno ⟨a, b, hcmp ▸ hi⟩) hexec)

/-- Settles O30, from the flag's frame, its independence and the cases of a step. -/
theorem flagIsSetByCmpAndReadByJumpsOnly : Obligations.FlagIsSetByCmpAndReadByJumpsOnly :=
  ⟨fun _ _ _ => exec_flag, fun a b s => ⟨_, exec_cmp s a b, beq_iff_eq⟩, exec_cmp_setFlag,
    fun _ _ _ f => exec_setFlag f, fun _ _ => step_changes_flag_cmp⟩

end Sys2Proof.Machine

/-! Family 20_memory: the memory accesses, inside and outside their bound (R31). -/

namespace Sys2Proof.Machine

/-- Read after write at the cell written. -/
theorem Memory.read_write_self {m : Memory} (a : Nat) (v : Byte) (hm : m.wf) : (m.write a v).read a = v :=
  (Memory.read_write m a v a hm.1).trans (if_pos rfl)

/-- Storing one cell leaves every other cell as it was. -/
theorem sameMemExcept_setMem_write {s : State} (a : Nat) (v : Byte) (hm : s.mem.wf) :
    SameMemExcept a s (s.setMem (s.mem.write a v)) :=
  fun x hx => (Memory.read_write s.mem a v x hm.1).trans (if_neg hx)

/-- Settles O8: inside memory the write answers `setMem` of one written cell, whose frame is read after write. -/
theorem memoryAccessesAreBoundsChecked : Obligations.MemoryAccessesAreBoundsChecked := by
  refine fun s addr v hm => ⟨fun hin => ?_, fun hout => ⟨memRead_error s addr hout, memWrite_error s addr v hout⟩⟩
  have haddr : addr < 256 := Nat.lt_succ_of_le hin
  have hregs : SameRegsExcept [] s (s.setMem (s.mem.write addr v)) := fun r _ => State.setMem_reg s _ r
  exact ⟨memRead_ok s addr haddr, _, memWrite_ok s addr v haddr, Memory.read_write_self addr v hm,
    sameMemExcept_setMem_write addr v hm, hregs, rfl, rfl, rfl, rfl, rfl⟩

end Sys2Proof.Machine

/-! Family 30_encoding: the opcode's fields (R52, R53) and the match of the whole opcode byte (R58). -/

namespace Sys2Proof

/-! The fields NOPS and SETS_PC -/

theorem Instr.operandBytes_length (i : Instr) : i.operandBytes.length = i.mnemonic.operandCount := by cases i <;> rfl

theorem encode_length (i : Instr) : (encode i).length = i.length := by
  rw [encode, encodeWith, List.length_cons, i.operandBytes_length, Instr.length, Nat.add_comm]

theorem Mnemonic.setsPc_iff_mem (m : Mnemonic) : m.setsPc = true ↔ m ∈ [.call, .ret, .jmp, .jeq, .jne] := by
  cases m <;> decide

/-- Bit 4 of the default opcode, read as the number R51 gives for it. -/
theorem opc_bit4_iff_setsPc (m : Mnemonic) : (opc m).toNat / 16 % 2 = 1 ↔ m.setsPc = true := by
  rw [← opc_setsPc m, setsPcField, beq_iff_eq]

/-- Outside the class of R53 every rule completes and ends with `pc` on by the instruction's length: CALL, the one rule that can
raise a fault, is in the class. -/
theorem Machine.exec_pc_of_not_setsPc {i : Instr} (h : i.mnemonic.setsPc = false) (s : State) :
    ∃ t, exec i s = .next t ∧ t.pc = s.pc + i.length := by
  cases i with
  | ldi a imm => exact ⟨_, exec_ldi s a imm, rfl⟩
  | prn a => exact ⟨_, exec_prn s a, rfl⟩
  | hlt => exact ⟨_, exec_hlt s, rfl⟩
  | add a b => exact ⟨_, exec_add s a b, rfl⟩
  | sub a b => exact ⟨_, exec_sub s a b, rfl⟩
  | mul a b => exact ⟨_, exec_mul s a b, rfl⟩
  | cmp a b => exact ⟨_, exec_cmp s a b, rfl⟩
  | push a => exact ⟨_, exec_push s a, rfl⟩
  | pop a => exact ⟨_, exec_pop s a, rfl⟩
  | call _ | ret | jmp _ | jeq _ | jne _ => cases h

theorem Machine.exec_jeq_not_taken (a : RegIx) {s : State} (h : s.flag = false) :
    exec (.jeq a) s = .next (s.setPc (s.pc + 2)) := by
  simp [exec_jeq, h]

theorem Machine.exec_jne_not_taken (a : RegIx) {s : State} (h : s.flag = true) :
    exec (.jne a) s = .next (s.setPc (s.pc + 2)) := by
  simp [exec_jne, h]

/-- Settles O12: the fields of the default opcodes are the operand count and the class, and each rule outside the class adds
the length to `pc`. -/
theorem opcodeFieldsGiveLengthAndBranchClass : Obligations.OpcodeFieldsGiveLengthAndBranchClass := by
  have hnops (i : Instr) : (opc i.mnemonic).toNat / 64 = i.mnemonic.operandCount := opc_nops i.mnemonic
  refine ⟨fun i => ?_, fun m => ?_, fun i s hbit => ?_, fun a s => ⟨fun hf => ?_, fun hf => ?_⟩⟩
  · rw [hnops]
    exact ⟨i.operandBytes_length.symm, encode_length i⟩
  · exact (opc_bit4_iff_setsPc m).trans m.setsPc_iff_mem
  · have hclass : i.mnemonic.setsPc = false := by
      rw [← Bool.not_eq_true, ← opc_bit4_iff_setsPc, hbit]
      exact Nat.zero_ne_one
    rw [hnops]
    exact Machine.exec_pc_of_not_setsPc hclass s
  · exact ⟨_, Machine.exec_jeq_not_taken a hf, rfl⟩
  · exact ⟨_, Machine.exec_jne_not_taken a hf, rfl⟩

/-! The match of the whole opcode byte -/

theorem OpcodeMap.Distinct.injective {o : OpcodeMap} (h : o.Distinct) : Function.Injective o := by
  intro m n hmn
  by_contra hne
  have hsymm : Std.Symm fun m n => o m ≠ o n := ⟨fun _ _ => Ne.symm⟩
  exact h.forall m.mem_all n.mem_all hne hmn

theorem opc_distinct : opc.Distinct := by decide

theorem exceptBind_ok {ε α β : Type} {x : Except ε α} {f : α → Except ε β} {b : β} (h : x >>= f = .ok b) :
    ∃ a, x = .ok a ∧ f a = .ok b := by
  cases x with
  | error e => cases h
  | ok a => exact ⟨a, rfl, h⟩

section
variable {bs tail : List Byte} {i : Instr}

/-! What each format decodes to (R50) -/

theorem decodeReg_ok {mk : RegIx → Instr} (h : decodeReg mk bs = .ok (i, tail)) : ∃ a, i = mk a := by
  match bs with
  | [] => cases h
  | _ :: _ =>
    obtain ⟨a, -, h⟩ := exceptBind_ok h
    cases h
    exact ⟨a, rfl⟩

theorem decodeRegReg_ok {mk : RegIx → RegIx → Instr} (h : decodeRegReg mk bs = .ok (i, tail)) : ∃ a b, i = mk a b := by
  match bs with
  | [] | [_] => cases h
  | _ :: _ :: _ =>
    obtain ⟨a, -, h⟩ := exceptBind_ok h
    obtain ⟨b, -, h⟩ := exceptBind_ok h
    cases h
    exact ⟨a, b, rfl⟩

theorem decodeRegImm_ok {mk : RegIx → Byte → Instr} (h : decodeRegImm mk bs = .ok (i, tail)) : ∃ a imm, i = mk a imm := by
  match bs with
  | [] | [_] => cases h
  | _ :: imm :: _ =>
    obtain ⟨a, -, h⟩ := exceptBind_ok h
    cases h
    exact ⟨a, imm, rfl⟩

/-- The operands decoded for a mnemonic are put into an instruction of that mnemonic. -/
theorem decodeOperands_mnemonic {m : Mnemonic} (h : decodeOperands m bs = .ok (i, tail)) : i.mnemonic = m := by
  cases m with
  | hlt | ret => cases h; rfl
  | ldi => obtain ⟨a, imm, rfl⟩ := decodeRegImm_ok h; rfl
  | add | sub | mul | cmp => obtain ⟨a, b, rfl⟩ := decodeRegReg_ok h; rfl
  | prn | push | pop | call | jmp | jeq | jne => obtain ⟨a, rfl⟩ := decodeReg_ok h; rfl

theorem decodeWith_opcode {o : OpcodeMap} {op : Byte} (h : decodeWith o (op :: bs) = .ok (i, tail)) : o i.mnemonic = op := by
  cases hl : lookup o op with
  | none => rw [decodeWith_unknown hl] at h; cases h
  | some m =>
    rw [decodeWith_known hl] at h
    rw [decodeOperands_mnemonic h]
    exact lookup_some hl

end

/-- Settles O13: the default opcodes are distinct, and the decoder answers only an instruction whose opcode `lookup` found. -/
theorem decodingMatchesTheWholeOpcodeByte : Obligations.DecodingMatchesTheWholeOpcodeByte :=
  ⟨fun _ _ h => opc_distinct.injective h, fun _ _ _ _ h => decodeWith_opcode h,
    fun _ rest h => decodeWith_unknown (lookup_none.2 h) rest⟩

end Sys2Proof

/-! Family 42_alu: what the ALU computes and what it leaves unchanged (R94). -/

namespace Sys2Proof.Machine

theorem State.setReg_reg_self (s : State) (r : RegIx) (v : Byte) : (s.setReg r v).reg r = v :=
  (State.setReg_reg s r r v).trans (if_pos rfl)

section
variable (a b : RegIx) (s : State)

/-! The four operations, each as one update of the state -/

@[simp] theorem aluApply_add : aluApply .add a b s = s.setReg a (s.reg a + s.reg b) := rfl

@[simp] theorem aluApply_sub : aluApply .sub a b s = s.setReg a (s.reg a - s.reg b) := rfl

@[simp] theorem aluApply_mul : aluApply .mul a b s = s.setReg a (s.reg a * s.reg b) := rfl

@[simp] theorem aluApply_cmp : aluApply .cmp a b s = s.setFlag (s.reg a == s.reg b) := rfl

/-- CMP writes the flag, any other operation writes register `a`; nothing else is ever written. -/
theorem aluApply_cases (op : AluOp) :
    (op ≠ .cmp ∧ ∃ v, aluApply op a b s = s.setReg a v) ∨ (op = .cmp ∧ ∃ f, aluApply op a b s = s.setFlag f) := by
  cases op with
  | add => exact .inl ⟨nofun, _, aluApply_add a b s⟩
  | sub => exact .inl ⟨nofun, _, aluApply_sub a b s⟩
  | mul => exact .inl ⟨nofun, _, aluApply_mul a b s⟩
  | cmp => exact .inr ⟨rfl, _, aluApply_cmp a b s⟩

/-! The results as numbers -/

theorem aluApply_add_toNat :
    ((aluApply .add a b s).reg a).toNat = ((s.reg a).toNat + (s.reg b).toNat) % 256 := by
  rw [aluApply_add, State.setReg_reg_self]
  exact BitVec.toNat_add _ _

theorem aluApply_sub_toNat_of_le (h : (s.reg b).toNat ≤ (s.reg a).toNat) :
    ((aluApply .sub a b s).reg a).toNat = (s.reg a).toNat - (s.reg b).toNat := by
  rw [aluApply_sub, State.setReg_reg_self]
  exact BitVec.toNat_sub_of_le h

theorem aluApply_sub_toNat_of_lt (h : (s.reg a).toNat < (s.reg b).toNat) :
    ((aluApply .sub a b s).reg a).toNat = (s.reg a).toNat + 256 - (s.reg b).toNat := by
  rw [aluApply_sub, State.setReg_reg_self, BitVec.toNat_sub_of_lt h]
  omega

theorem aluApply_mul_toNat :
    ((aluApply .mul a b s).reg a).toNat = ((s.reg a).toNat * (s.reg b).toNat) % 256 := by
  rw [aluApply_mul, State.setReg_reg_self]
  exact BitVec.toNat_mul _ _

theorem aluApply_cmp_flag : (aluApply .cmp a b s).flag = true ↔ (s.reg a).toNat = (s.reg b).toNat :=
  beq_iff_eq.trans BitVec.toNat_inj.symm

end

/-- Settles O48: the results are the byte operations' values, the frame that of the one update each operation makes. -/
theorem aluResultsAreModulo256 : Obligations.AluResultsAreModulo256 := by
  refine ⟨fun a b s => ⟨aluApply_add_toNat a b s, aluApply_sub_toNat_of_le a b s, aluApply_sub_toNat_of_lt a b s,
    aluApply_mul_toNat a b s, aluApply_cmp_flag a b s⟩, fun op a b s => ?_⟩
  obtain ⟨hop, v, hset⟩ | ⟨rfl, f, hset⟩ := aluApply_cases a b s op
  · have hregs := sameRegsExcept_setReg s a v
    rw [hset, if_neg hop]
    exact ⟨fun _ => ⟨hregs, rfl⟩, hregs, rfl, rfl, rfl, rfl, rfl⟩
  · rw [hset, if_pos rfl]
    exact ⟨fun hop => absurd rfl hop, fun _ _ => rfl, rfl, rfl, rfl, rfl, rfl⟩

end Sys2Proof.Machine

/-! Family 70_reset_and_hazards: what the load writes and what it leaves unchanged (R141). -/

namespace Sys2Proof.Machine

/-! Bytes stored at rising addresses, all of them inside memory -/

theorem storeBytes_cons (b : Byte) (bs : List Byte) {addr : Nat} (m : Memory) (h : addr < 256) :
    storeBytes (b :: bs) addr m = storeBytes bs (addr + 1) (m.write addr b) :=
  congrArg (storeBytes bs (addr + 1)) (if_pos h)

theorem read_storeBytes_outside {bs : List Byte} {addr x : Nat} {m : Memory} (hm : m.wf) (hfit : addr + bs.length ≤ 256)
    (hx : x < addr ∨ addr + bs.length ≤ x) : (storeBytes bs addr m).read x = m.read x := by
  induction bs generalizing addr m with
  | nil => rfl
  | cons b bs ih =>
    rw [List.length_cons] at hfit hx
    have haddr : addr < 256 := by omega
    have hne : x ≠ addr := by omega
    rw [storeBytes_cons b bs m haddr, ih (Memory.write_wf m addr b hm haddr) (by omega) (by omega),
      Memory.read_write m addr b x hm.1, if_neg hne]

/-- The first byte's cell lies below those of the later bytes, so it keeps that byte. -/
theorem read_storeBytes_inside {bs : List Byte} {addr : Nat} {m : Memory} (hm : m.wf) (hfit : addr + bs.length ≤ 256)
    {k : Nat} (hk : k < bs.length) : (storeBytes bs addr m).read (addr + k) = bs[k] := by
  induction bs generalizing addr m k with
  | nil => cases hk
  | cons b bs ih =>
    rw [List.length_cons] at hfit
    have haddr : addr < 256 := by omega
    have hmw := Memory.write_wf m addr b hm haddr
    have hfit' : addr + 1 + bs.length ≤ 256 := by omega
    rw [storeBytes_cons b bs m haddr]
    cases k with
    | zero => exact (read_storeBytes_outside hmw hfit' (.inl (Nat.lt_succ_self addr))).trans (Memory.read_write_self addr b hm)
    | succ k =>
      rw [← Nat.succ_add_eq_add_succ addr k]
      exact ih hmw hfit' (Nat.lt_of_succ_lt_succ hk)

/-- Where every byte fits, no write of the load fails, and the load is an update of memory alone. -/
theorem loadFrom_eq_setMem {bs : List Byte} {addr : Nat} (s : State) (hfit : addr + bs.length ≤ 256) :
    loadFrom bs addr s = .ok (s.setMem (storeBytes bs addr s.mem)) := by
  induction bs generalizing addr s with
  | nil => rfl
  | cons b bs ih =>
    rw [List.length_cons] at hfit
    have haddr : addr < 256 := by omega
    rw [loadFrom_cons b bs addr s haddr, storeBytes_cons b bs s.mem haddr]
    exact ih _ (by omega)

/-- The bytes stored from address 0 on leave the cells beyond them as they were. -/
theorem read_storeBytes_zero_of_le {bs : List Byte} {x : Nat} {m : Memory} (hm : m.wf) (hfit : 0 + bs.length ≤ 256)
    (hx : bs.length ≤ x) : (storeBytes bs 0 m).read x = m.read x :=
  read_storeBytes_outside hm hfit (.inr ((Nat.zero_add _).trans_le hx))

/-- Settles O3: a load that fits updates memory alone, to the image's bytes stored from address 0 on. -/
theorem loadWritesTheImageOnly : Obligations.LoadWritesTheImageOnly := by
  refine ⟨fun image s hm hlen => ?_, fun image hlen => ?_⟩
  · have hfit : 0 + image.length ≤ 256 := (Nat.zero_add _).trans_le hlen
    refine ⟨_, loadFrom_eq_setMem s hfit, fun k hk => ?_, fun _ => read_storeBytes_zero_of_le hm hfit,
      fun r _ => State.setMem_reg s _ r, rfl, rfl, rfl, rfl, rfl⟩
    have hbyte := read_storeBytes_inside hm hfit hk
    rwa [Nat.zero_add] at hbyte
  · have hfit : 0 + image.length ≤ 256 := (Nat.zero_add _).trans_le hlen
    exact ⟨_, loadFrom_eq_setMem State.reset hfit, fun _ => read_storeBytes_zero_of_le Memory.wf_nil hfit⟩

end Sys2Proof.Machine

/-! Family other: the statements that span the whole model, from the encoding round trip to the printed text. -/

/-! Encoding and decoding are inverse (R50, R55 to R57) -/

namespace Sys2Proof

/-- The default opcodes are a value of the parameter OPC that D1 admits. -/
theorem opc_wellFormed : opc.WellFormed := ⟨opc_distinct, fun m _ => ⟨opc_nops m, opc_setsPc m⟩⟩

theorem lookup_opcode {o : OpcodeMap} (h : o.Distinct) (m : Mnemonic) : lookup o (o m) = some m := by
  cases hl : lookup o (o m) with
  | none => exact absurd rfl (lookup_none.1 hl m)
  | some n => rw [h.injective (lookup_some hl)]

/-! Decoding operand bytes that name registers -/

theorem decodeReg_regByte (mk : RegIx → Instr) (a : RegIx) (rest : List Byte) :
    decodeReg mk (regByte a :: rest) = .ok (mk a, rest) := by
  rw [decodeReg, regIndex_regByte]
  rfl

theorem decodeRegReg_regByte (mk : RegIx → RegIx → Instr) (a b : RegIx) (rest : List Byte) :
    decodeRegReg mk (regByte a :: regByte b :: rest) = .ok (mk a b, rest) := by
  rw [decodeRegReg, regIndex_regByte, regIndex_regByte]
  rfl

theorem decodeRegImm_regByte (mk : RegIx → Byte → Instr) (a : RegIx) (imm : Byte) (rest : List Byte) :
    decodeRegImm mk (regByte a :: imm :: rest) = .ok (mk a imm, rest) := by
  rw [decodeRegImm, regIndex_regByte]
  rfl

/-- Operand decoding inverts `operandBytes`, format by format (R50). -/
theorem decodeOperands_operandBytes (i : Instr) (rest : List Byte) :
    decodeOperands i.mnemonic (i.operandBytes ++ rest) = .ok (i, rest) := by
  cases i with
  | hlt | ret => rfl
  | ldi a imm => exact decodeRegImm_regByte .ldi a imm rest
  | add a b | sub a b | mul a b | cmp a b => exact decodeRegReg_regByte _ a b rest
  | prn a | push a | pop a | call a | jmp a | jeq a | jne a => exact decodeReg_regByte _ a rest

/-- Distinct opcodes are all that the round trip needs: `lookup` then finds the mnemonic again. -/
theorem decodeWith_encodeWith {o : OpcodeMap} (h : o.Distinct) (i : Instr) (rest : List Byte) :
    decodeWith o (encodeWith o i ++ rest) = .ok (i, rest) :=
  (decodeWith_known (lookup_opcode h i.mnemonic) _).trans (decodeOperands_operandBytes i rest)

theorem decode_encode (i : Instr) (rest : List Byte) : decode (encode i ++ rest) = .ok (i, rest) :=
  decodeWith_encodeWith opc_distinct i rest

/-- Settles O10: `lookup` finds the mnemonic of a distinct opcode, and each format decodes its own operand bytes. -/
theorem decodeInvertsEncodeForAnyOpcodeMap : Obligations.DecodeInvertsEncodeForAnyOpcodeMap :=
  ⟨opc_wellFormed, fun _ h => decodeWith_encodeWith h.1⟩

/-! Decoded bytes are an encoding -/

theorem regByte_of_regIndex {v : Byte} {r : RegIx} (h : regIndex v = .ok r) : regByte r = v := by
  by_cases hv : v.toNat < 8
  · rw [regIndex_ok v hv] at h
    cases h
    exact BitVec.ofNat_toNat 8 v
  · rw [regIndex_error v (Nat.le_of_not_lt hv)] at h
    cases h

section
variable {bs tail : List Byte} {i : Instr}

theorem decodeReg_bytes {mk : RegIx → Instr} (h : decodeReg mk bs = .ok (i, tail)) :
    ∃ a, i = mk a ∧ bs = regByte a :: tail := by
  match bs with
  | [] => cases h
  | _ :: _ =>
    obtain ⟨a, ha, h⟩ := exceptBind_ok h
    cases h
    exact ⟨a, rfl, by rw [regByte_of_regIndex ha]⟩

theorem decodeRegReg_bytes {mk : RegIx → RegIx → Instr} (h : decodeRegReg mk bs = .ok (i, tail)) :
    ∃ a b, i = mk a b ∧ bs = regByte a :: regByte b :: tail := by
  match bs with
  | [] | [_] => cases h
  | _ :: _ :: _ =>
    obtain ⟨a, ha, h⟩ := exceptBind_ok h
    obtain ⟨b, hb, h⟩ := exceptBind_ok h
    cases h
    exact ⟨a, b, rfl, by rw [regByte_of_regIndex ha, regByte_of_regIndex hb]⟩

theorem decodeRegImm_bytes {mk : RegIx → Byte → Instr} (h : decodeRegImm mk bs = .ok (i, tail)) :
    ∃ a imm, i = mk a imm ∧ bs = regByte a :: imm :: tail := by
  match bs with
  | [] | [_] => cases h
  | _ :: imm :: _ =>
    obtain ⟨a, ha, h⟩ := exceptBind_ok h
    cases h
    exact ⟨a, imm, rfl, by rw [regByte_of_regIndex ha]⟩

theorem operandBytes_of_decodeOperands {m : Mnemonic} (h : decodeOperands m bs = .ok (i, tail)) :
    i.operandBytes ++ tail = bs := by
  cases m with
  | hlt | ret => cases h; rfl
  | ldi => obtain ⟨a, imm, rfl, rfl⟩ := decodeRegImm_bytes h; rfl
  | add | sub | mul | cmp => obtain ⟨a, b, rfl, rfl⟩ := decodeRegReg_bytes h; rfl
  | prn | push | pop | call | jmp | jeq | jne => obtain ⟨a, rfl, rfl⟩ := decodeReg_bytes h; rfl

theorem encodeWith_of_decodeWith {o : OpcodeMap} (h : decodeWith o bs = .ok (i, tail)) : encodeWith o i ++ tail = bs := by
  match bs with
  | [] => cases h
  | op :: _ =>
    have hop := decodeWith_opcode h
    cases hl : lookup o op with
    | none => rw [decodeWith_unknown hl] at h; cases h
    | some m =>
      rw [decodeWith_known hl] at h
      rw [encodeWith, List.cons_append, hop, operandBytes_of_decodeOperands h]

end

/-- Settles O11: a decoded register index gives its operand byte back, and the opcode is the whole first byte. -/
theorem encodeInvertsDecode : Obligations.EncodeInvertsDecode := fun _ _ _ _ => encodeWith_of_decodeWith

/-- Settles O14: the words are the encodings of the fourteen instructions shown, so the round trip decodes them. -/
theorem tableWordsDecode : Obligations.TableWordsDecode :=
  ⟨decode_encode (.ldi 0 8) [], decode_encode (.prn 7) [], decode_encode .hlt [], decode_encode (.add 0 1) [],
    decode_encode (.sub 1 2) [], decode_encode (.mul 2 2) [], decode_encode (.cmp 1 3) [], decode_encode (.push 7) [],
    decode_encode (.pop 3) [], decode_encode (.call 1) [], decode_encode .ret [], decode_encode (.jmp 4) [],
    decode_encode (.jeq 2) [], decode_encode (.jne 4) []⟩

end Sys2Proof

/-! What fetch, decode and operand check answer, one lemma for each outcome in R128's order -/

namespace Sys2Proof

theorem Mnemonic.operandCount_le_two (m : Mnemonic) : m.operandCount ≤ 2 := by cases m <;> decide

theorem Mnemonic.operandCount_of_bIsRegister {m : Mnemonic} (h : m.bIsRegister = true) : m.operandCount = 2 := by
  cases m with
  | add | sub | mul | cmp => rfl
  | ldi | prn | hlt | push | pop | call | ret | jmp | jeq | jne => cases h

theorem Mnemonic.bIsRegister_of_mem {m : Mnemonic} (h : m ∈ [.add, .sub, .mul, .cmp]) : m.bIsRegister = true := by
  cases m with
  | add | sub | mul | cmp => rfl
  | ldi | prn | hlt | push | pop | call | ret | jmp | jeq | jne => exact absurd h (by decide)

theorem decode_opcode (m : Mnemonic) (rest : List Byte) : decode (opc m :: rest) = decodeOperands m rest :=
  decodeWith_known (lookup_opcode opc_distinct m) rest

/-! Operand bytes that are missing, or name no register -/

theorem decodeOperands_nil {m : Mnemonic} (h : 1 ≤ m.operandCount) : decodeOperands m [] = .error (.truncated 1) := by
  cases m with
  | hlt | ret => cases h
  | ldi | prn | add | sub | mul | cmp | push | pop | call | jmp | jeq | jne => rfl

theorem decodeOperands_singleton {m : Mnemonic} (h : m.operandCount = 2) (a : Byte) :
    decodeOperands m [a] = .error (.truncated 2) := by
  cases m with
  | ldi | add | sub | mul | cmp => rfl
  | hlt | ret | prn | push | pop | call | jmp | jeq | jne => cases h

section
variable {a : Byte} (ha : 8 ≤ a.toNat)
include ha

theorem decodeReg_bad_first (mk : RegIx → Instr) (rest : List Byte) : decodeReg mk (a :: rest) = .error (.badRegister a) := by
  rw [decodeReg, regIndex_error a ha]
  rfl

theorem decodeRegReg_bad_first (mk : RegIx → RegIx → Instr) (b : Byte) (rest : List Byte) :
    decodeRegReg mk (a :: b :: rest) = .error (.badRegister a) := by
  rw [decodeRegReg, regIndex_error a ha]
  rfl

theorem decodeRegImm_bad_first (mk : RegIx → Byte → Instr) (b : Byte) (rest : List Byte) :
    decodeRegImm mk (a :: b :: rest) = .error (.badRegister a) := by
  rw [decodeRegImm, regIndex_error a ha]
  rfl

/-- Operand a is a register in every format that has one, and is checked once all the operands are there. -/
theorem decodeOperands_bad_first {m : Mnemonic} {rest : List Byte} (hm : 1 ≤ m.operandCount)
    (hlen : m.operandCount ≤ rest.length + 1) : decodeOperands m (a :: rest) = .error (.badRegister a) := by
  cases m with
  | hlt | ret => cases hm
  | prn | push | pop | call | jmp | jeq | jne => exact decodeReg_bad_first ha _ rest
  | ldi =>
    obtain ⟨b, rest, rfl⟩ := List.exists_cons_of_length_pos (Nat.le_of_succ_le_succ hlen)
    exact decodeRegImm_bad_first ha _ b rest
  | add | sub | mul | cmp =>
    obtain ⟨b, rest, rfl⟩ := List.exists_cons_of_length_pos (Nat.le_of_succ_le_succ hlen)
    exact decodeRegReg_bad_first ha _ b rest

end

theorem decodeRegReg_bad_second {a b : Byte} (ha : a.toNat < 8) (hb : 8 ≤ b.toNat) (mk : RegIx → RegIx → Instr)
    (rest : List Byte) : decodeRegReg mk (a :: b :: rest) = .error (.badRegister b) := by
  rw [decodeRegReg, regIndex_ok a ha, regIndex_error b hb]
  rfl

theorem decodeOperands_bad_second {m : Mnemonic} {a b : Byte} (hm : m.bIsRegister = true) (ha : a.toNat < 8)
    (hb : 8 ≤ b.toNat) (rest : List Byte) : decodeOperands m (a :: b :: rest) = .error (.badRegister b) := by
  cases m with
  | add | sub | mul | cmp => exact decodeRegReg_bad_second ha hb _ rest
  | ldi | prn | hlt | push | pop | call | ret | jmp | jeq | jne => cases hm

end Sys2Proof

namespace Sys2Proof.Machine

/-! The instruction of checked operand bytes -/

theorem regByte_checkedReg {v : Byte} (h : v.toNat < 8) : regByte (checkedReg v) = v := by
  rw [regByte, checkedReg, Fin.val_ofNat, Nat.mod_eq_of_lt h, BitVec.ofNat_toNat, BitVec.setWidth_eq]

theorem buildInstr_mnemonic (m : Mnemonic) (a b : Byte) : (buildInstr m a b).mnemonic = m := by cases m <;> rfl

theorem buildInstr_operandBytes {m : Mnemonic} {a b : Byte} (ha : 1 ≤ m.operandCount → a.toNat < 8)
    (hb : m.bIsRegister = true → b.toNat < 8) : (buildInstr m a b).operandBytes = [a, b].take m.operandCount := by
  cases m with
  | hlt | ret => rfl
  | prn | push | pop | call | jmp | jeq | jne => exact congrArg (fun x => [x]) (regByte_checkedReg (ha (Nat.le_refl 1)))
  | ldi => exact congrArg (fun x => [x, b]) (regByte_checkedReg (ha (by decide)))
  | add | sub | mul | cmp =>
    exact congrArg₂ (fun x y => [x, y]) (regByte_checkedReg (ha (by decide))) (regByte_checkedReg (hb rfl))

theorem buildInstr_encode {m : Mnemonic} {a b : Byte} (ha : 1 ≤ m.operandCount → a.toNat < 8)
    (hb : m.bIsRegister = true → b.toNat < 8) : encode (buildInstr m a b) = [opc m, a, b].take (m.operandCount + 1) := by
  rw [encode, encodeWith, buildInstr_mnemonic, buildInstr_operandBytes ha hb, List.take_succ_cons]

section
variable {s : State}

/-! The bytes fetched -/

theorem fetchBytes_length (s : State) : (fetchBytes s).length = min 3 (256 - s.pc) := by
  obtain h | h | h | h : s.pc ≤ 253 ∨ s.pc = 254 ∨ s.pc = 255 ∨ 256 ≤ s.pc := by omega
  · rw [fetchBytes_three s h, List.length_cons, List.length_cons, List.length_singleton]
    omega
  · rw [fetchBytes_last_two s h, h]
    rfl
  · rw [fetchBytes_last s h, h]
    rfl
  · rw [fetchBytes_out s h, List.length_nil]
    omega

theorem bytesAt_nil (s : State) (addr : Nat) : BytesAt s addr [] := nofun

theorem bytesAt_cons {addr : Nat} {b : Byte} {bs : List Byte} (hb : s.mem.read addr = b) (hbs : BytesAt s (addr + 1) bs) :
    BytesAt s addr (b :: bs)
  | 0, _ => hb
  | k + 1, h => (congrArg s.mem.read (Nat.succ_add_eq_add_succ addr k).symm).trans (hbs k (Nat.lt_of_succ_lt_succ h))

theorem BytesAt.take {addr : Nat} {bs : List Byte} (h : BytesAt s addr bs) (n : Nat) : BytesAt s addr (bs.take n) :=
  fun k hk => (h k (List.length_take_le' n bs |>.trans_lt' hk)).trans List.getElem_take.symm

/-- The three bytes from `addr` on, as memory holds them. -/
theorem bytesAt_three (s : State) (addr : Nat) :
    BytesAt s addr [s.mem.read addr, s.mem.read (addr + 1), s.mem.read (addr + 2)] :=
  bytesAt_cons rfl (bytesAt_cons rfl (bytesAt_cons rfl (bytesAt_nil s _)))

theorem bytesAt_fetchBytes (s : State) : BytesAt s s.pc (fetchBytes s) := by
  obtain h | h | h | h : s.pc ≤ 253 ∨ s.pc = 254 ∨ s.pc = 255 ∨ 256 ≤ s.pc := by omega
  · rw [fetchBytes_three s h]
    exact bytesAt_three s s.pc
  · rw [fetchBytes_last_two s h, h]
    exact bytesAt_cons rfl (bytesAt_cons rfl (bytesAt_nil s _))
  · rw [fetchBytes_last s h, h]
    exact bytesAt_cons rfl (bytesAt_nil s _)
  · rw [fetchBytes_out s h]
    exact bytesAt_nil s _

/-- At most three bytes that stand at `pc` inside memory are the first ones fetched. -/
theorem fetchBytes_of_bytesAt {bs : List Byte} (hthree : bs.length ≤ 3) (hfit : s.pc + bs.length ≤ 256)
    (h : BytesAt s s.pc bs) : ∃ rest, fetchBytes s = bs ++ rest := by
  have hlen : bs.length ≤ (fetchBytes s).length := by
    rw [fetchBytes_length]
    omega
  obtain ⟨rest, hrest⟩ : bs <+: fetchBytes s :=
    List.prefix_iff_getElem.2 ⟨hlen, fun k hk => (h k hk).symm.trans (bytesAt_fetchBytes s k (hk.trans_le hlen))⟩
  exact ⟨rest, hrest.symm⟩

/-- Below the last cell there are the opcode, operand a, and a third byte unless memory ends. -/
theorem fetchBytes_two (h : s.pc ≤ 254) :
    ∃ rest, fetchBytes s = s.mem.read s.pc :: s.mem.read (s.pc + 1) :: rest ∧ rest.length = min 1 (254 - s.pc) := by
  obtain h | h : s.pc ≤ 253 ∨ s.pc = 254 := by omega
  · refine ⟨_, fetchBytes_three s h, ?_⟩
    rw [List.length_singleton]
    omega
  · rw [fetchBytes_last_two s h, h]
    exact ⟨[], rfl, rfl⟩

/-! The outcomes -/

theorem fetchDecode_of_ok {i : Instr} {rest : List Byte} (h : decode (fetchBytes s) = .ok (i, rest)) :
    fetchDecode s = .ok i := by
  rw [fetchDecode, h]

theorem fetchDecode_of_error {e : DecodeError} (h : decode (fetchBytes s) = .error e) :
    fetchDecode s = .error (faultOf s.pc e) := by
  rw [fetchDecode, h]

/-- The fetch of the opcode (R71). -/
theorem fetchDecode_beyond_memory (h : 255 < s.pc) : fetchDecode s = .error (.outOfBounds .mem s.pc) :=
  fetchDecode_of_error (e := .truncated 0) (by rw [fetchBytes_out s h]; rfl)

/-- The match of the opcode (R72), before any operand byte. -/
theorem fetchDecode_unknown (hpc : s.pc ≤ 255) (h : ∀ m, opc m ≠ s.mem.read s.pc) :
    fetchDecode s = .error (.unknownInstruction (s.mem.read s.pc) s.pc) := by
  obtain ⟨rest, hrest⟩ := fetchBytes_head s (Nat.lt_succ_of_le hpc)
  refine fetchDecode_of_error (e := .unknownOpcode (s.mem.read s.pc)) ?_
  rw [hrest]
  exact decodeWith_unknown (lookup_none.2 h) rest

section
variable {m : Mnemonic} (hop : s.mem.read s.pc = opc m)
include hop

/-- The fetch of the operands (R73): the first byte missing is the one at 256. -/
theorem fetchDecode_truncated (hpc : s.pc ≤ 255) (hlen : 256 < s.pc + 1 + m.operandCount) :
    fetchDecode s = .error (.outOfBounds .mem 256) := by
  have htwo := m.operandCount_le_two
  obtain h | h : s.pc = 254 ∨ s.pc = 255 := by omega
  · rw [h] at hop hlen
    have herr : decode (fetchBytes s) = .error (.truncated 2) := by
      rw [fetchBytes_last_two s h, hop, decode_opcode, decodeOperands_singleton (by omega)]
    rw [fetchDecode_of_error herr, h, faultOf]
  · rw [h] at hop hlen
    have herr : decode (fetchBytes s) = .error (.truncated 1) := by
      rw [fetchBytes_last s h, hop, decode_opcode, decodeOperands_nil (by omega)]
    rw [fetchDecode_of_error herr, h, faultOf]

variable (hfit : s.pc + 1 + m.operandCount ≤ 256)
include hfit

/-- The check of operand a (R14, R73). -/
theorem fetchDecode_bad_first (hm : 1 ≤ m.operandCount) (ha : 8 ≤ (s.mem.read (s.pc + 1)).toNat) :
    fetchDecode s = .error (.outOfBounds .reg (s.mem.read (s.pc + 1)).toNat) := by
  refine fetchDecode_of_error (e := .badRegister (s.mem.read (s.pc + 1))) ?_
  obtain ⟨rest, hrest, hlen⟩ := fetchBytes_two (s := s) (by omega)
  have htwo := m.operandCount_le_two
  rw [hrest, hop, decode_opcode, decodeOperands_bad_first ha hm (by omega)]

/-- The check of operand b, once operand a is good (R14, R73). -/
theorem fetchDecode_bad_second (hm : m.bIsRegister = true) (ha : (s.mem.read (s.pc + 1)).toNat < 8)
    (hb : 8 ≤ (s.mem.read (s.pc + 2)).toNat) :
    fetchDecode s = .error (.outOfBounds .reg (s.mem.read (s.pc + 2)).toNat) := by
  refine fetchDecode_of_error (e := .badRegister (s.mem.read (s.pc + 2))) ?_
  rw [m.operandCount_of_bIsRegister hm] at hfit
  rw [fetchBytes_three s (by omega), hop, decode_opcode, decodeOperands_bad_second hm ha hb]

end

/-- An instruction whose encoding stands at `pc` inside memory is the one decoded (R34, R35, R73). -/
theorem fetchDecode_of_encode {i : Instr} (hfit : s.pc + (encode i).length ≤ 256) (h : BytesAt s s.pc (encode i)) :
    fetchDecode s = .ok i := by
  have hthree : (encode i).length ≤ 3 := by
    have := i.mnemonic.operandCount_le_two
    rw [encode_length, Instr.length]
    omega
  obtain ⟨rest, hrest⟩ := fetchBytes_of_bytesAt hthree hfit h
  exact fetchDecode_of_ok (hrest ▸ decode_encode i rest)

/-- With every check passed the instruction is the one R75 builds. -/
theorem fetchDecode_checked {m : Mnemonic} (hop : s.mem.read s.pc = opc m) (hfit : s.pc + 1 + m.operandCount ≤ 256)
    (ha : 1 ≤ m.operandCount → (s.mem.read (s.pc + 1)).toNat < 8)
    (hb : m.bIsRegister = true → (s.mem.read (s.pc + 2)).toNat < 8) :
    fetchDecode s = .ok (buildInstr m (s.mem.read (s.pc + 1)) (s.mem.read (s.pc + 2))) := by
  refine fetchDecode_of_encode ?_ ?_
  · rw [encode_length, Instr.length, buildInstr_mnemonic]
    omega
  · rw [buildInstr_encode ha hb, ← hop]
    exact (bytesAt_three s s.pc).take _

/-- All that fetch, decode and operand check can answer: the four kinds of condition, or an instruction inside memory. -/
theorem fetchDecode_cases (s : State) :
    (255 < s.pc ∧ fetchDecode s = .error (.outOfBounds .mem s.pc)) ∨
    (s.pc ≤ 255 ∧ (∀ m, opc m ≠ s.mem.read s.pc) ∧
      fetchDecode s = .error (.unknownInstruction (s.mem.read s.pc) s.pc)) ∨
    (s.pc ≤ 255 ∧ fetchDecode s = .error (.outOfBounds .mem 256)) ∨
    (∃ v : Byte, 8 ≤ v.toNat ∧ fetchDecode s = .error (.outOfBounds .reg v.toNat)) ∨
    ∃ i : Instr, s.pc + i.length ≤ 256 ∧ fetchDecode s = .ok i := by
  by_cases hpc : s.pc ≤ 255
  case neg => exact .inl ⟨Nat.lt_of_not_le hpc, fetchDecode_beyond_memory (Nat.lt_of_not_le hpc)⟩
  by_cases hop : ∃ m, opc m = s.mem.read s.pc
  case neg => exact .inr (.inl ⟨hpc, not_exists.1 hop, fetchDecode_unknown hpc (not_exists.1 hop)⟩)
  obtain ⟨m, hop⟩ := hop
  by_cases hfit : s.pc + 1 + m.operandCount ≤ 256
  case neg => exact .inr (.inr (.inl ⟨hpc, fetchDecode_truncated hop.symm hpc (Nat.lt_of_not_le hfit)⟩))
  by_cases ha : 1 ≤ m.operandCount ∧ 8 ≤ (s.mem.read (s.pc + 1)).toNat
  case pos => exact .inr (.inr (.inr (.inl ⟨_, ha.2, fetchDecode_bad_first hop.symm hfit ha.1 ha.2⟩)))
  have ha' (hm : 1 ≤ m.operandCount) : (s.mem.read (s.pc + 1)).toNat < 8 := Nat.lt_of_not_le fun h => ha ⟨hm, h⟩
  by_cases hb : m.bIsRegister = true ∧ 8 ≤ (s.mem.read (s.pc + 2)).toNat
  case pos =>
    have hm : 1 ≤ m.operandCount := by
      rw [m.operandCount_of_bIsRegister hb.1]
      decide
    exact .inr (.inr (.inr (.inl ⟨_, hb.2, fetchDecode_bad_second hop.symm hfit hb.1 (ha' hm) hb.2⟩)))
  refine .inr (.inr (.inr (.inr ⟨_, ?_, fetchDecode_checked hop.symm hfit ha' fun hm => Nat.lt_of_not_le fun h => hb ⟨hm, h⟩⟩)))
  rw [Instr.length, buildInstr_mnemonic]
  omega

end

end Sys2Proof.Machine

/-! The step (R70 to R75) and the conditions it raises before a rule is reached (R121 to R124, R128) -/

namespace Sys2Proof.Machine

section
variable {s : State} (hs : s.status = .running)

theorem onlyFaultSet_raise (s : State) (f : FaultRecord) : OnlyFaultSet f s (s.raise f) :=
  ⟨rfl, rfl, rfl, rfl, rfl, fun _ _ => rfl, rfl⟩

include hs

theorem stepRaises_of_fetchDecode {f : FaultRecord} (hf : fetchDecode s = .error f) : StepRaises s f :=
  ⟨_, step_raises s hs hf, onlyFaultSet_raise s f⟩

theorem step_of_encode {i : Instr} (hfit : s.pc + (encode i).length ≤ 256) (h : BytesAt s s.pc (encode i)) :
    step s = exec i s :=
  step_runs s hs (fetchDecode_of_encode hfit h)

/-- An instruction without operands runs at every address of memory, 255 too. -/
theorem step_of_single_byte {i : Instr} {op : Byte} (hi : encode i = [op]) (hpc : s.pc ≤ 255)
    (hop : s.mem.read s.pc = op) : step s = exec i s := by
  refine step_of_encode hs ?_ ?_
  · rw [hi]
    exact Nat.succ_le_succ hpc
  · rw [hi]
    exact bytesAt_cons hop (bytesAt_nil s _)

/-- Once the opcode is known R75 makes four tests, each of which is one lemma about `fetchDecode`. -/
theorem step_eq_referenceStep : step s = referenceStep s := by
  by_cases hpc : s.pc > 255
  case pos => rw [step_raises s hs (fetchDecode_beyond_memory hpc), referenceStep, if_pos hpc]
  have hin : s.pc ≤ 255 := Nat.le_of_not_lt hpc
  cases hl : lookup opc (s.mem.read s.pc) with
  | none =>
    rw [step_raises s hs (fetchDecode_unknown hin (lookup_none.1 hl)), referenceStep, if_neg hpc]
    simp only [hl]
  | some m =>
    have hop := (lookup_some hl).symm
    have hn : nopsField (s.mem.read s.pc) = m.operandCount := hop ▸ opc_nops m
    have htwo := m.operandCount_le_two
    simp only [referenceStep, if_neg hpc, hl, hn]
    split_ifs with h1 h2 ha hb
    · have hmem : s.pc + 1 = 256 := by omega
      rw [hmem, step_raises s hs (fetchDecode_truncated hop hin (by omega))]
    · have hmem : s.pc + 2 = 256 := by omega
      rw [hmem, step_raises s hs (fetchDecode_truncated hop hin (by omega))]
    · exact step_raises s hs (fetchDecode_bad_first hop (by omega) ha.1 ha.2)
    · have hcount := m.operandCount_of_bIsRegister hb.1
      exact step_raises s hs (fetchDecode_bad_second hop (by omega) hb.1 (by omega) hb.2)
    · refine step_runs s hs (fetchDecode_checked hop (by omega) (fun hm => ?_) fun hm => ?_)
      · exact Nat.lt_of_not_le fun h => ha ⟨hm, h⟩
      · exact Nat.lt_of_not_le fun h => hb ⟨hm, h⟩

end

/-- Settles O15, from the decode of the fetched bytes. -/
theorem stepRunsTheDecodedInstruction : Obligations.StepRunsTheDecodedInstruction :=
  fun s _ _ hs h => step_runs s hs (fetchDecode_of_ok h)

/-- Settles O16: the bytes in memory are the first ones fetched, and the decoder inverts the encoder. -/
theorem stepRunsTheEncodedInstruction : Obligations.StepRunsTheEncodedInstruction := fun _ _ hs => step_of_encode hs

/-- Settles O17: each test of R75 is one outcome of fetch, decode and operand check. -/
theorem stepIsTheSpecsPseudoCode : Obligations.StepIsTheSpecsPseudoCode := fun _ => step_eq_referenceStep

/-! The rules' completion: every instruction answers a next state -/

theorem exec_completes (i : Instr) (s : State) : ∃ t, exec i s = .next t := by
  cases i with
  | push a => exact ⟨_, exec_push s a⟩
  | pop a => exact ⟨_, exec_pop s a⟩
  | ret => exact ⟨_, exec_ret s⟩
  | ldi _ _ | prn _ | hlt | add _ _ | sub _ _ | mul _ _ | cmp _ _ | jmp _ | jeq _ | jne _ => exact ⟨_, rfl⟩
  | call a =>
    by_cases h : s.pc + 2 ≤ 255
    · exact ⟨_, exec_call s a h⟩
    · exact ⟨_, exec_call_fault s a (Nat.lt_of_not_le h)⟩

theorem step_completes {s : State} (hs : s.status = .running) : ∃ t, step s = .next t := by
  cases hd : fetchDecode s with
  | error f => exact ⟨_, step_raises s hs hd⟩
  | ok i =>
    rw [step_runs s hs hd]
    exact exec_completes i s

/-- Settles O18: in Running fetch and decode raise or answer an instruction, and every rule completes. -/
theorem stepsExistExactlyWhileRunning : Obligations.StepsExistExactlyWhileRunning :=
  ⟨fun s => ⟨step_completes, fun ⟨_, h⟩ => (step_cases s h).1⟩, step_halted, step_faulted,
    fun _ _ hs => stepRaises_of_fetchDecode hs⟩

/-! The conditions -/

/-- Settles O20, from the outcome of the opcode fetch. -/
theorem opcodeFetchBeyondMemoryFaults : Obligations.OpcodeFetchBeyondMemoryFaults :=
  ⟨fun _ hs hpc => stepRaises_of_fetchDecode hs (fetchDecode_beyond_memory hpc),
    fun s hpc => fetchBytes_head s (Nat.lt_succ_of_le hpc)⟩

theorem opc_ne_zero (m : Mnemonic) : opc m ≠ 0 := by cases m <;> decide

theorem stepRaises_unknown {s : State} (hs : s.status = .running) (hpc : s.pc ≤ 255) (h : ∀ m, opc m ≠ s.mem.read s.pc) :
    StepRaises s (.unknownInstruction (s.mem.read s.pc) s.pc) :=
  stepRaises_of_fetchDecode hs (fetchDecode_unknown hpc h)

/-- Settles O21: a byte that `lookup` does not find is raised; the 242 are counted by evaluation. -/
theorem unknownOpcodesFault : Obligations.UnknownOpcodesFault := by
  refine ⟨fun s => stepRaises_unknown, by decide +kernel, fun s hs hpc hzero => ?_⟩
  have h := stepRaises_unknown hs hpc fun m => hzero ▸ opc_ne_zero m
  rwa [hzero] at h

/-- Settles O22, from the outcomes of the two register checks. -/
theorem registerBytesAboveSevenFault : Obligations.RegisterBytesAboveSevenFault := by
  refine fun s m hs hop hfit => ⟨fun hm ha => ?_, fun hm ha hb => ?_⟩
  · exact stepRaises_of_fetchDecode hs (fetchDecode_bad_first hop hfit hm ha)
  · exact stepRaises_of_fetchDecode hs
      (fetchDecode_bad_second hop hfit (Mnemonic.bIsRegister_of_mem hm) (Nat.lt_succ_of_le ha) hb)

/-- At 254 CALL's return address is 256, so a good register ends in the fault of its rule (R110). -/
theorem stepRaises_call_at_254 {s : State} (hs : s.status = .running) (hpc : s.pc = 254) (hop : s.mem.read s.pc = opc .call)
    (ha : (s.mem.read (s.pc + 1)).toNat < 8) : StepRaises s (.outOfBounds .mem 256) := by
  have hd := fetchDecode_checked (m := .call) hop (by rw [hpc]; decide) (fun _ => ha) nofun
  have hexec := exec_call_fault s (checkedReg (s.mem.read (s.pc + 1))) (by omega)
  have hreturn : s.pc + 2 = 256 := by omega
  rw [hreturn] at hexec
  exact ⟨_, (step_runs s hs hd).trans hexec, onlyFaultSet_raise s _⟩

/-- Settles O23: each clause is the outcome of the first check that fails. -/
theorem firstFaultInOrderIsReported : Obligations.FirstFaultInOrderIsReported := by
  refine ⟨fun s hs hpc h => ?_, fun s m hs hpc hop hlen => ?_, fun s m hs hpc hop hm ha _ => ?_, fun s hs hpc hop => ?_⟩
  · rw [← hpc] at h ⊢
    exact stepRaises_unknown hs (by omega) h
  · exact stepRaises_of_fetchDecode hs (fetchDecode_truncated hop hpc hlen)
  · have hcount := m.operandCount_of_bIsRegister hm
    exact stepRaises_of_fetchDecode hs (fetchDecode_bad_first hop (by omega) (by omega) ha)
  · have hoperand : 255 = s.pc + 1 := by rw [hpc]
    rw [hoperand]
    rw [← hpc] at hop
    refine ⟨fun ha => ?_, fun ha => stepRaises_call_at_254 hs hpc hop (Nat.lt_succ_of_le ha)⟩
    exact stepRaises_of_fetchDecode hs (fetchDecode_bad_first hop (by rw [hpc]; decide) (by decide) ha)

/-! The fetch faults of each format (R73) -/

theorem fetchFaultsF1 {m : Mnemonic} (hm : m.operandCount = 1) : FetchFaultsF1 m := by
  refine fun s hs hop => ⟨fun hpc => ?_, fun hpc ha => ?_⟩
  · exact stepRaises_of_fetchDecode hs (fetchDecode_truncated hop (by omega) (by omega))
  · exact stepRaises_of_fetchDecode hs (fetchDecode_bad_first hop (by omega) (by omega) ha)

theorem fetchFaultsRegImm {m : Mnemonic} (hm : m.operandCount = 2) : FetchFaultsRegImm m := by
  refine fun s hs hop => ⟨fun hpc => ?_, fun hpc ha => ?_⟩
  · exact stepRaises_of_fetchDecode hs (fetchDecode_truncated hop (by omega) (by omega))
  · exact stepRaises_of_fetchDecode hs (fetchDecode_bad_first hop (by omega) (by omega) ha)

theorem fetchFaultsRegReg {m : Mnemonic} (hm : m.bIsRegister = true) : FetchFaultsRegReg m := by
  have hcount := m.operandCount_of_bIsRegister hm
  refine ⟨fetchFaultsRegImm hcount, fun s hs hop hpc ha hb => ?_⟩
  exact stepRaises_of_fetchDecode hs (fetchDecode_bad_second hop (by omega) hm ha hb)

end Sys2Proof.Machine

/-! What the rules do to the record, to memory, to `running` and `out`, and to `pc`, over all instructions -/

namespace Sys2Proof.Machine

section
variable {i : Instr} {s t : State}

/-! The record (R74): only CALL's return address can raise one -/

theorem exec_fault_cases (h : exec i s = .next t) :
    t.fault = s.fault ∨ (∃ a, i = .call a) ∧ 255 < s.pc + 2 ∧ t = s.raise (.outOfBounds .mem (s.pc + 2)) := by
  obtain ⟨a, imm, rfl, rfl⟩ | ⟨a, rfl, rfl⟩ | ⟨rfl, rfl⟩ | ⟨a, b, rfl, rfl⟩ | ⟨a, b, rfl, rfl⟩ | ⟨a, b, rfl, rfl⟩ |
    ⟨a, b, rfl, rfl⟩ | ⟨a, rfl, rfl⟩ | ⟨a, rfl, rfl⟩ | ⟨a, rfl, hpc, rfl⟩ | ⟨a, rfl, hpc, rfl⟩ | ⟨rfl, rfl⟩ | ⟨a, rfl, rfl⟩ |
    ⟨a, rfl, rfl⟩ | ⟨a, rfl, rfl⟩ := exec_cases h
  on_goal 11 => exact .inr ⟨⟨a, rfl⟩, hpc, rfl⟩
  all_goals exact .inl rfl

theorem exec_fault_of_not_call (hcall : ∀ a, i ≠ .call a) (h : exec i s = .next t) : t.fault = s.fault :=
  (exec_fault_cases h).resolve_right fun ⟨⟨a, ha⟩, _⟩ => hcall a ha

theorem exec_keeps_fault (hs : s.fault ≠ none) (h : exec i s = .next t) : t.fault ≠ none := by
  obtain hf | ⟨-, -, rfl⟩ := exec_fault_cases h
  · rwa [hf]
  · exact nofun

theorem step_fault_cases {f : FaultRecord} (h : step s = .next t) (hf : t.fault = some f) : t = s.raise f := by
  obtain ⟨hs, ⟨g, -, rfl⟩ | ⟨i, -, hexec⟩⟩ := step_cases s h
  · rw [Option.some.inj hf]
  · have hnone := (State.status_running s).1 hs |>.2
    obtain hsame | ⟨-, -, rfl⟩ := exec_fault_cases hexec
    · cases hnone.symm.trans (hsame.symm.trans hf)
    · rw [Option.some.inj hf]

theorem runFor_faulted {f : FaultRecord} (h : s.status = .faulted f) (k : Nat) : runFor k s = s := by
  cases k with
  | zero => rfl
  | succ k => rw [runFor, step_faulted s f h]

/-! Memory (R33) -/

theorem exec_mem_cases (h : exec i s = .next t) :
    t.mem = s.mem ∨ (∃ a, i = .push a ∨ i = .call a) ∧ ∃ v, t.mem = s.mem.write (pushAddr s) v := by
  obtain ⟨a, imm, rfl, rfl⟩ | ⟨a, rfl, rfl⟩ | ⟨rfl, rfl⟩ | ⟨a, b, rfl, rfl⟩ | ⟨a, b, rfl, rfl⟩ | ⟨a, b, rfl, rfl⟩ |
    ⟨a, b, rfl, rfl⟩ | ⟨a, rfl, rfl⟩ | ⟨a, rfl, rfl⟩ | ⟨a, rfl, -, rfl⟩ | ⟨a, rfl, -, rfl⟩ | ⟨rfl, rfl⟩ | ⟨a, rfl, rfl⟩ |
    ⟨a, rfl, rfl⟩ | ⟨a, rfl, rfl⟩ := exec_cases h
  on_goal 8 => exact .inr ⟨⟨a, .inl rfl⟩, _, rfl⟩
  on_goal 9 => exact .inr ⟨⟨a, .inr rfl⟩, _, rfl⟩
  all_goals exact .inl rfl

theorem exec_mem (hpush : ∀ a, i ≠ .push a) (hcall : ∀ a, i ≠ .call a) (h : exec i s = .next t) : t.mem = s.mem :=
  (exec_mem_cases h).resolve_right fun ⟨⟨a, ha⟩, _⟩ => ha.elim (hpush a) (hcall a)

theorem exec_sameMemExcept (hm : s.mem.wf) (h : exec i s = .next t) : SameMemExcept (pushAddr s) s t := by
  obtain hmem | ⟨-, v, hmem⟩ := exec_mem_cases h
  · exact fun addr _ => congrArg (Memory.read · addr) hmem
  · intro addr hne
    rw [hmem, Memory.read_write s.mem _ v addr hm.1, if_neg hne]

theorem exec_keeps_wf (hm : s.mem.wf) (h : exec i s = .next t) : t.mem.wf := by
  obtain hmem | ⟨-, v, hmem⟩ := exec_mem_cases h
  · rwa [hmem]
  · rw [hmem]
    exact Memory.write_wf s.mem _ v hm (byte_lt _)

/-- The four instructions that reach memory (R33). -/
def usesStack : Instr → Bool
  | .push _ | .pop _ | .call _ | .ret => true
  | .ldi _ _ | .prn _ | .hlt | .add _ _ | .sub _ _ | .mul _ _ | .cmp _ _ | .jmp _ | .jeq _ | .jne _ => false

theorem exec_setMem_of_not_usesStack (m : Memory) (hi : usesStack i = false) (h : exec i s = .next t) :
    exec i (s.setMem m) = .next (t.setMem m) := by
  cases i with
  | push _ | pop _ | call _ | ret => cases hi
  | ldi _ _ | prn _ | hlt | add _ _ | sub _ _ | mul _ _ | cmp _ _ | jmp _ | jeq _ | jne _ => cases h; rfl

/-- What is done outside memory depends on memory only through a pop. -/
theorem exec_setMem_of_not_pop (m : Memory) (hpop : ∀ a, i ≠ .pop a) (hret : i ≠ .ret) (h : exec i s = .next t) :
    ∃ n, exec i (s.setMem m) = .next (t.setMem n) := by
  cases i with
  | pop a => exact absurd rfl (hpop a)
  | ret => exact absurd rfl hret
  | push a =>
    cases (exec_push s a).symm.trans h
    exact ⟨_, exec_push (s.setMem m) a⟩
  | call a =>
    by_cases hpc : s.pc + 2 ≤ 255
    · cases (exec_call s a hpc).symm.trans h
      exact ⟨_, exec_call (s.setMem m) a hpc⟩
    · cases (exec_call_fault s a (Nat.lt_of_not_le hpc)).symm.trans h
      exact ⟨m, exec_call_fault (s.setMem m) a (Nat.lt_of_not_le hpc)⟩
  | ldi _ _ | prn _ | hlt | add _ _ | sub _ _ | mul _ _ | cmp _ _ | jmp _ | jeq _ | jne _ =>
    exact ⟨m, exec_setMem_of_not_usesStack m rfl h⟩

/-- The one byte that a pop reads is the one at the stack pointer. -/
theorem exec_setMem_of_same_top {m : Memory} (hpush : ∀ a, i ≠ .push a) (hcall : ∀ a, i ≠ .call a)
    (htop : m.read s.sp.toNat = s.mem.read s.sp.toNat) (h : exec i s = .next t) :
    exec i (s.setMem m) = .next (t.setMem m) := by
  cases i with
  | push a => exact absurd rfl (hpush a)
  | call a => exact absurd rfl (hcall a)
  | pop a =>
    cases (exec_pop s a).symm.trans h
    rw [exec_pop, State.setMem_mem, State.setMem_sp, htop]
    rfl
  | ret =>
    cases (exec_ret s).symm.trans h
    rw [exec_ret, State.setMem_mem, State.setMem_sp, htop]
    rfl
  | ldi _ _ | prn _ | hlt | add _ _ | sub _ _ | mul _ _ | cmp _ _ | jmp _ | jeq _ | jne _ =>
    exact exec_setMem_of_not_usesStack m rfl h

/-! The run state and the output (R20, R25): written by one instruction each, read by none -/

/-- The run state after an instruction. -/
def runningAfter (b : Bool) : Instr → Bool
  | .hlt => false
  | .ldi _ _ | .prn _ | .add _ _ | .sub _ _ | .mul _ _ | .cmp _ _ | .push _ | .pop _ | .call _ | .ret | .jmp _ | .jeq _ |
    .jne _ => b

/-- The bytes an instruction prints. -/
def printed (s : State) : Instr → List Byte
  | .prn a => [s.reg a]
  | .ldi _ _ | .hlt | .add _ _ | .sub _ _ | .mul _ _ | .cmp _ _ | .push _ | .pop _ | .call _ | .ret | .jmp _ | .jeq _ |
    .jne _ => []

theorem runningAfter_eq (b : Bool) (hi : i ≠ .hlt) : runningAfter b i = b := by
  cases i with
  | hlt => exact absurd rfl hi
  | ldi _ _ | prn _ | add _ _ | sub _ _ | mul _ _ | cmp _ _ | push _ | pop _ | call _ | ret | jmp _ | jeq _ | jne _ => rfl

theorem runningAfter_true_eq_false : runningAfter true i = false ↔ i = .hlt := by
  refine ⟨fun h => ?_, fun h => h ▸ rfl⟩
  by_contra hne
  cases (runningAfter_eq true hne).symm.trans h

theorem runningAfter_false (i : Instr) : runningAfter false i = false := by cases i <;> rfl

theorem printed_eq_nil (s : State) (hi : ∀ a, i ≠ .prn a) : printed s i = [] := by
  cases i with
  | prn a => exact absurd rfl (hi a)
  | ldi _ _ | hlt | add _ _ | sub _ _ | mul _ _ | cmp _ _ | push _ | pop _ | call _ | ret | jmp _ | jeq _ | jne _ => rfl

theorem printed_length_le (s : State) (i : Instr) : (printed s i).length ≤ 1 := by cases i <;> simp [printed]

/-- With any run state and output before, an instruction ends with its own run state and its own bytes appended, and does
everything else the same. -/
theorem exec_setControl (h : exec i s = .next t) (b : Bool) (o : List Byte) :
    exec i { s with running := b, out := o } = .next { t with running := runningAfter b i, out := o ++ printed s i } := by
  obtain ⟨a, imm, rfl, rfl⟩ | ⟨a, rfl, rfl⟩ | ⟨rfl, rfl⟩ | ⟨a, c, rfl, rfl⟩ | ⟨a, c, rfl, rfl⟩ | ⟨a, c, rfl, rfl⟩ |
    ⟨a, c, rfl, rfl⟩ | ⟨a, rfl, rfl⟩ | ⟨a, rfl, rfl⟩ | ⟨a, rfl, hpc, rfl⟩ | ⟨a, rfl, hpc, rfl⟩ | ⟨rfl, rfl⟩ | ⟨a, rfl, rfl⟩ |
    ⟨a, rfl, rfl⟩ | ⟨a, rfl, rfl⟩ := exec_cases h
  all_goals simp only [printed, runningAfter, List.append_nil]
  · exact exec_ldi _ a imm
  · exact exec_prn _ a
  · exact exec_hlt _
  · exact exec_add _ a c
  · exact exec_sub _ a c
  · exact exec_mul _ a c
  · exact exec_cmp _ a c
  · exact exec_push _ a
  · exact exec_pop _ a
  · exact exec_call _ a hpc
  · exact exec_call_fault _ a hpc
  · exact exec_ret _
  · exact exec_jmp _ a
  · exact exec_jeq _ a
  · exact exec_jne _ a

theorem exec_running (h : exec i s = .next t) : t.running = runningAfter s.running i := by
  have ht := h.symm.trans (exec_setControl h s.running s.out)
  injection ht with ht
  rw [ht]

theorem exec_out (h : exec i s = .next t) : t.out = s.out ++ printed s i := by
  have ht := h.symm.trans (exec_setControl h s.running s.out)
  injection ht with ht
  rw [ht]

theorem step_running_iff (h : step s = .next t) : t.running = false ↔ fetchDecode s = .ok .hlt := by
  obtain ⟨hs, ⟨f, hf, rfl⟩ | ⟨i, hi, hexec⟩⟩ := step_cases s h
  · simp [hf, ((State.status_running s).1 hs).1]
  · rw [exec_running hexec, hi, ((State.status_running s).1 hs).1, Except.ok.injEq]
    exact runningAfter_true_eq_false

theorem step_halted_iff (h : step s = .next t) : t.status = .halted ↔ fetchDecode s = .ok .hlt := by
  rw [State.status_halted, step_running_iff h, and_iff_left_iff_imp]
  intro hd
  obtain ⟨hs, -⟩ := step_cases s h
  rw [step_runs s hs hd] at h
  exact (exec_fault_of_not_call (fun _ => Instr.noConfusion) h).trans ((State.status_running s).1 hs).2

theorem step_out (h : step s = .next t) : t.out = s.out ∨ ∃ i, fetchDecode s = .ok i ∧ t.out = s.out ++ printed s i := by
  obtain ⟨-, ⟨f, -, rfl⟩ | ⟨i, hi, hexec⟩⟩ := step_cases s h
  · exact .inl rfl
  · exact .inr ⟨i, hi, exec_out hexec⟩

/-! The program counter (R16, C13) -/

/-- A rule ends with `pc` at the next byte, which is at most 256, or at a byte value. -/
theorem exec_pc_le (hfit : s.pc + i.length ≤ 256) (h : exec i s = .next t) : t.pc ≤ 256 := by
  cases hclass : i.mnemonic.setsPc with
  | false =>
    obtain ⟨u, hu, hpc⟩ := exec_pc_of_not_setsPc hclass s
    cases hu.symm.trans h
    rwa [hpc]
  | true =>
    cases i with
    | ldi _ _ | prn _ | hlt | add _ _ | sub _ _ | mul _ _ | cmp _ _ | push _ | pop _ => cases hclass
    | ret =>
      cases (exec_ret s).symm.trans h
      exact (byte_lt _).le
    | jmp a =>
      cases (exec_jmp s a).symm.trans h
      exact (byte_lt _).le
    | jeq a =>
      cases (exec_jeq s a).symm.trans h
      rw [State.setPc_pc]
      split
      · exact (byte_lt _).le
      · exact hfit
    | jne a =>
      cases (exec_jne s a).symm.trans h
      rw [State.setPc_pc]
      split
      · exact hfit
      · exact (byte_lt _).le
    | call a =>
      by_cases hpc : s.pc + 2 ≤ 255
      · cases (exec_call s a hpc).symm.trans h
        exact (byte_lt _).le
      · cases (exec_call_fault s a (Nat.lt_of_not_le hpc)).symm.trans h
        exact (Nat.le_add_right _ _).trans hfit

/-! The invariant -/

theorem inv_of_no_fault (hm : s.mem.wf) (hpc : s.pc ≤ 256) (hf : s.fault = none) : s.Inv where
  memWf := hm
  pcRange := hpc
  faultedRuns := fun h => absurd hf h
  faultLegal := fun _ h => absurd (hf.symm.trans h) nofun

theorem inv_raise (hinv : s.Inv) (hrun : s.running = true) {f : FaultRecord} (hf : f.Legal s) : (s.raise f).Inv where
  memWf := hinv.memWf
  pcRange := hinv.pcRange
  faultedRuns := fun _ => hrun
  faultLegal := fun _ h => Option.some.inj h ▸ hf

/-- What fetch, decode and operand check raise at a `pc` up to 256 is legal: an address raised is 256. -/
theorem legal_of_fetchDecode_error (hpc : s.pc ≤ 256) {f : FaultRecord} (hf : fetchDecode s = .error f) : f.Legal s := by
  obtain ⟨hout, hd⟩ | ⟨hin, hop, hd⟩ | ⟨-, hd⟩ | ⟨v, hv, hd⟩ | ⟨i, -, hd⟩ := fetchDecode_cases s
  · cases hd.symm.trans hf
    exact Nat.le_antisymm hpc hout
  · cases hd.symm.trans hf
    exact ⟨rfl, hin, rfl, hop⟩
  · cases hd.symm.trans hf
    rfl
  · cases hd.symm.trans hf
    exact ⟨hv, Nat.le_of_lt_succ (byte_lt v)⟩
  · cases hd.symm.trans hf

/-- A decoded instruction lies inside memory (R35). -/
theorem fits_of_fetchDecode_ok (h : fetchDecode s = .ok i) : s.pc + i.length ≤ 256 := by
  obtain ⟨-, hd⟩ | ⟨-, -, hd⟩ | ⟨-, hd⟩ | ⟨v, -, hd⟩ | ⟨j, hfit, hd⟩ := fetchDecode_cases s
  on_goal 5 =>
    cases hd.symm.trans h
    exact hfit
  all_goals cases hd.symm.trans h

/-- The one record a rule raises is CALL's, whose two bytes lie inside memory, so its return address is 256. -/
theorem exec_keeps_inv (hinv : s.Inv) (hs : s.status = .running) (hfit : s.pc + i.length ≤ 256) (h : exec i s = .next t) :
    t.Inv := by
  obtain ⟨hrun, hnone⟩ := (State.status_running s).1 hs
  obtain hsame | ⟨⟨a, rfl⟩, hout, rfl⟩ := exec_fault_cases h
  · exact inv_of_no_fault (exec_keeps_wf hinv.memWf h) (exec_pc_le hfit h) (hsame.trans hnone)
  · exact inv_raise hinv hrun (Nat.le_antisymm hfit hout)

end

/-! The statements over all instructions -/

/-- Settles O24: a step whose result holds a record is `raise` of that record. -/
theorem faultingStepsChangeOnlyTheRecord : Obligations.FaultingStepsChangeOnlyTheRecord :=
  fun s _ f h hf => step_fault_cases h hf ▸ onlyFaultSet_raise s f

/-- Settles O25: every rule completes, and the one change of the record is CALL's. -/
theorem onlyCallCanFaultOnceReached : Obligations.OnlyCallCanFaultOnceReached := by
  refine ⟨fun i s hcall => ?_, fun a s hnone => ⟨fun hpc => ?_, fun hpc => ?_⟩⟩
  · obtain ⟨t, ht⟩ := exec_completes i s
    exact ⟨t, ht, exec_fault_of_not_call hcall ht⟩
  · exact ⟨_, exec_call s a hpc, hnone⟩
  · exact ⟨_, exec_call_fault s a hpc, onlyFaultSet_raise s _⟩

/-- Settles O26: a Faulted state has no step to run, and no rule clears a record. -/
theorem faultsAreNeverCleared : Obligations.FaultsAreNeverCleared := by
  refine ⟨fun s f h => ⟨fun t ht => ?_, runFor_faulted h⟩, fun i s t => exec_keeps_fault, rfl⟩
  cases (step_faulted s f h).symm.trans ht

/-- Settles O33: PUSH and CALL write the one cell of `pushAddr`, POP and RET read the one at the stack pointer. -/
theorem onlyStackInstructionsReachMemory : Obligations.OnlyStackInstructionsReachMemory :=
  ⟨fun _ _ _ => exec_mem, fun _ _ _ => exec_sameMemExcept, fun _ _ _ m => exec_setMem_of_not_pop m,
    fun _ _ _ _ => exec_setMem_of_same_top⟩

/-- Settles O31: HLT alone clears the run state, and a rule does the same whatever it is. -/
theorem runningIsClearedByHltOnly : Obligations.RunningIsClearedByHltOnly := by
  refine ⟨rfl, fun _ _ => step_running_iff, fun _ _ => step_halted_iff, fun i s t hs h => ?_, fun s t hs h => ?_,
    fun i s t b hi h => ?_⟩
  · rw [exec_running h, hs, runningAfter_false]
  · have hrunning := (State.status_running s).1 (step_cases s h).1
    cases hs.symm.trans hrunning.1
  · have hset := exec_setControl h b s.out
    rwa [← exec_out h, runningAfter_eq b hi] at hset

/-- Settles O32: an instruction appends what it prints, whatever was printed before. -/
theorem outputIsAppendedByPrnOnly : Obligations.OutputIsAppendedByPrnOnly := by
  refine ⟨rfl, fun a s => ⟨_, exec_prn s a, rfl⟩, fun s t h hprn => ?_, fun s t h => ?_, fun i s t before h => ?_⟩
  · obtain hout | ⟨i, hi, hout⟩ := step_out h
    · exact hout
    · rw [hout, printed_eq_nil s fun a ha => hprn a (ha ▸ hi), List.append_nil]
  · obtain hout | ⟨i, -, hout⟩ := step_out h
    · exact ⟨[], by rw [hout, List.append_nil], Nat.zero_le 1⟩
    · exact ⟨_, hout, printed_length_le s i⟩
  · have hset := exec_setControl h s.running before
    rw [← exec_running h] at hset
    exact ⟨_, hset, exec_out h⟩

/-- Settles O28, from the rules' equations; outside the branch class a rule adds the instruction's length. -/
theorem nextPcTable : Obligations.NextPcTable := by
  refine ⟨fun s a b imm => ?_, fun s a => ?_, fun s => ⟨_, exec_hlt s, rfl⟩, fun s a hpc => ?_,
    fun s => ⟨_, exec_ret s, rfl⟩, fun s a => ⟨⟨_, exec_jmp s a, rfl⟩, ⟨_, exec_jeq s a, rfl⟩, _, exec_jne s a, ?_⟩,
    fun s i hs => step_runs s hs, fun s t h hf => ?_⟩
  · simp only [List.forall_mem_cons, List.not_mem_nil, false_imp_iff, implies_true, and_true]
    exact ⟨exec_pc_of_not_setsPc rfl s, exec_pc_of_not_setsPc rfl s, exec_pc_of_not_setsPc rfl s,
      exec_pc_of_not_setsPc rfl s, exec_pc_of_not_setsPc rfl s⟩
  · simp only [List.forall_mem_cons, List.not_mem_nil, false_imp_iff, implies_true, and_true]
    exact ⟨exec_pc_of_not_setsPc rfl s, exec_pc_of_not_setsPc rfl s, exec_pc_of_not_setsPc rfl s⟩
  · exact ⟨_, exec_call s a (Nat.add_le_add_right hpc 2), rfl⟩
  · cases s.flag <;> rfl
  · obtain ⟨f, hf⟩ := Option.ne_none_iff_exists'.1 hf
    rw [step_fault_cases h hf, State.raise_pc]

/-- Settles O19: what fetch and decode raise is legal, and a rule whose bytes lie inside memory keeps the invariant. -/
theorem everyStepKeepsTheInvariant : Obligations.EveryStepKeepsTheInvariant := by
  intro s t hinv h
  obtain ⟨hs, ⟨f, hf, rfl⟩ | ⟨i, hi, hexec⟩⟩ := step_cases s h
  · exact inv_raise hinv ((State.status_running s).1 hs).1 (legal_of_fetchDecode_error hinv.pcRange hf)
  · exact exec_keeps_inv hinv hs (fits_of_fetchDecode_ok hi) hexec

end Sys2Proof.Machine

/-! The stack operations (R102) and the frames of the register and `pc` updates -/

namespace Sys2Proof.Machine

theorem byte_add_one_toNat (v : Byte) : (v + 1).toNat = (v.toNat + 1) % 256 := BitVec.toNat_add v 1

theorem byte_sub_one_toNat (v : Byte) : (v - 1).toNat = (v.toNat + 255) % 256 := by
  rw [BitVec.toNat_sub, Nat.add_comm]
  rfl

section
variable (s : State) (v : Byte)

theorem decSp_sp : (decSp s).sp = s.sp - 1 := decSp_reg s 7

theorem incSp_sp : (incSp s).sp = s.sp + 1 := incSp_reg s 7

theorem decSp_sp_toNat : (decSp s).sp.toNat = (s.sp.toNat + 255) % 256 := by rw [decSp_sp, byte_sub_one_toNat]

theorem incSp_sp_toNat : (incSp s).sp.toNat = (s.sp.toNat + 1) % 256 := by rw [incSp_sp, byte_add_one_toNat]

theorem decSp_reg_of_ne {r : RegIx} (h : r ≠ 7) : (decSp s).reg r = s.reg r := (decSp_reg s r).trans (if_neg h)

theorem incSp_reg_of_ne {r : RegIx} (h : r ≠ 7) : (incSp s).reg r = s.reg r := (incSp_reg s r).trans (if_neg h)

/-- The state a push leaves. -/
def pushed : State := (decSp s).setMem (s.mem.write (pushAddr s) v)

theorem push_eq_pushed : push s v = .ok (pushed s v) := push_eq s v

theorem exec_push_eq_pushed (a : RegIx) : exec (.push a) s = .next ((pushed s ((decSp s).reg a)).setPc (s.pc + 2)) :=
  exec_push s a

theorem exec_call_eq_pushed (a : RegIx) (h : s.pc + 2 ≤ 255) :
    exec (.call a) s = .next ((pushed s (BitVec.ofNat 8 (s.pc + 2))).setPc ((decSp s).reg a).toNat) :=
  exec_call s a h

theorem pushed_sp : (pushed s v).sp = s.sp - 1 := decSp_sp s

theorem pushed_sp_toNat : (pushed s v).sp.toNat = (s.sp.toNat + 255) % 256 := decSp_sp_toNat s

theorem pushed_sp_eq_pushAddr : (pushed s v).sp.toNat = pushAddr s := congrArg BitVec.toNat (pushed_sp s v)

theorem pushed_sameRegsExcept : SameRegsExcept [7] s (pushed s v) := sameRegsExcept_decSp s

theorem pushed_sameControl : SameControl s (pushed s v) := ⟨rfl, rfl, rfl⟩

variable {s}

theorem pushed_read_pushAddr (hm : s.mem.wf) : (pushed s v).mem.read (pushAddr s) = v := Memory.read_write_self _ v hm

theorem pushed_read_top (hm : s.mem.wf) : (pushed s v).mem.read (pushed s v).sp.toNat = v := by
  rw [pushed_sp_eq_pushAddr, pushed_read_pushAddr v hm]

theorem pushed_sameMemExcept (hm : s.mem.wf) : SameMemExcept (pushAddr s) s (pushed s v) :=
  sameMemExcept_setMem_write _ v hm

theorem returnByte_toNat {n : Nat} (h : n + 2 ≤ 255) : (BitVec.ofNat 8 (n + 2)).toNat = n + 2 :=
  Nat.mod_eq_of_lt (Nat.lt_succ_of_le h)

end

/-- LDI, ADD, SUB and MUL write one register and `pc`. -/
theorem frame_setReg_setPc (s : State) (r : RegIx) (v : Byte) (n : Nat) :
    SameRegsExcept [r] s ((s.setReg r v).setPc n) ∧ ((s.setReg r v).setPc n).flag = s.flag ∧
      SameControl s ((s.setReg r v).setPc n) ∧ SameMem s ((s.setReg r v).setPc n) :=
  ⟨sameRegsExcept_setReg s r v, rfl, ⟨rfl, rfl, rfl⟩, fun _ => rfl⟩

/-- The jumps write `pc` only. -/
theorem frame_setPc (s : State) (n : Nat) :
    SameRegsExcept [] s (s.setPc n) ∧ (s.setPc n).flag = s.flag ∧ SameControl s (s.setPc n) ∧ SameMem s (s.setPc n) :=
  ⟨fun _ _ => rfl, rfl, ⟨rfl, rfl, rfl⟩, fun _ => rfl⟩

/-! The instructions one by one -/

/-- Settles O34, from LDI's equation and the fetch faults of its format. -/
theorem ldiLoadsTheImmediate : Obligations.LdiLoadsTheImmediate := by
  refine ⟨fun a imm s => ⟨_, exec_ldi s a imm, ?_, rfl, frame_setReg_setPc s a imm _⟩, fun a imm => rfl, fetchFaultsRegImm rfl⟩
  exact State.setReg_reg_self s a imm

/-- Settles O35, from PRN's equation and the fetch faults of its format. -/
theorem prnEmitsTheRegister : Obligations.PrnEmitsTheRegister :=
  ⟨fun a s => ⟨_, exec_prn s a, rfl, rfl, fun _ _ => rfl, rfl, rfl, rfl, fun _ => rfl⟩, fun _ => rfl, fetchFaultsF1 rfl⟩

/-- Settles O36: HLT's one byte is always inside memory, and its equation leaves no record. -/
theorem hltStopsTheMachine : Obligations.HltStopsTheMachine := by
  refine ⟨fun s => ⟨_, exec_hlt s, rfl, rfl, fun _ _ => rfl, rfl, rfl, rfl, fun _ => rfl⟩, rfl, fun s hs hpc hop => ?_⟩
  have hstep := step_of_single_byte hs (i := .hlt) rfl hpc hop
  refine ⟨hstep, _, hstep.trans (exec_hlt s), ?_⟩
  exact (State.status_halted _).2 ⟨rfl, ((State.status_running s).1 hs).2⟩

/-- Settles O37: the result is the ALU's sum. -/
theorem addWritesTheSum : Obligations.AddWritesTheSum :=
  ⟨fun a b s => ⟨_, exec_add s a b, aluApply_add_toNat a b s, rfl, frame_setReg_setPc s a _ _⟩, fun _ _ => rfl,
    fetchFaultsRegReg rfl⟩

/-- The ALU's difference as the non-negative remainder of R5. -/
theorem aluApply_sub_toNat (a b : RegIx) (s : State) :
    (((aluApply .sub a b s).reg a).toNat : Int) = ((s.reg a).toNat - (s.reg b).toNat : Int) % 256 := by
  have ha := byte_lt (s.reg a)
  have hb := byte_lt (s.reg b)
  obtain h | h := Nat.lt_or_ge (s.reg a).toNat (s.reg b).toNat
  · rw [aluApply_sub_toNat_of_lt a b s h]
    omega
  · rw [aluApply_sub_toNat_of_le a b s h]
    omega

/-- Settles O38: the result is the ALU's difference. -/
theorem subWritesTheDifference : Obligations.SubWritesTheDifference :=
  ⟨fun a b s => ⟨_, exec_sub s a b, aluApply_sub_toNat a b s, rfl, frame_setReg_setPc s a _ _⟩, fun _ _ => rfl,
    fetchFaultsRegReg rfl⟩

/-- Settles O39: the result is the ALU's product. -/
theorem mulWritesTheLowProduct : Obligations.MulWritesTheLowProduct :=
  ⟨fun a b s => ⟨_, exec_mul s a b, aluApply_mul_toNat a b s, rfl, frame_setReg_setPc s a _ _⟩, fun _ _ => rfl,
    fetchFaultsRegReg rfl⟩

/-- Settles O40: the flag is the ALU's bit of equality. -/
theorem cmpSetsTheFlagOnEquality : Obligations.CmpSetsTheFlagOnEquality := by
  refine ⟨fun a b s => ⟨_, exec_cmp s a b, ?_, rfl, fun _ _ => rfl, ⟨rfl, rfl, rfl⟩, fun _ => rfl⟩, fun _ _ => rfl,
    fetchFaultsRegReg rfl⟩
  exact Bool.eq_iff_iff.2 ((aluApply_cmp_flag a b s).trans decide_eq_true_iff.symm)

/-- Settles O41: PUSH is a push of the register read after the decrement. -/
theorem pushStoresBelowTheStackPointer : Obligations.PushStoresBelowTheStackPointer := by
  refine ⟨fun a s hm => ?_, fun _ => rfl, fetchFaultsF1 rfl⟩
  let v := (decSp s).reg a
  exact ⟨_, exec_push_eq_pushed s a, pushed_sp_toNat s v, pushed_read_top v hm, decSp_reg_of_ne s, pushed_sp_eq_pushAddr s v,
    pushed_sameMemExcept v hm, pushed_sameRegsExcept s v, rfl, rfl, pushed_sameControl s v⟩

/-- Settles O42: the increment follows the register's write, so that POP R7 increments the byte popped. -/
theorem popLoadsFromTheStackPointer : Obligations.PopLoadsFromTheStackPointer := by
  refine ⟨fun a s => ⟨_, exec_pop s a, fun ha => ⟨?_, ?_⟩, fun ha => ?_,
    (sameRegsExcept_setReg s a _).trans (sameRegsExcept_incSp _), rfl, rfl, ⟨rfl, rfl, rfl⟩, fun _ => rfl⟩, fun _ => rfl,
    fetchFaultsF1 rfl⟩
  · rw [State.setPc_reg, incSp_reg_of_ne _ ha, State.setReg_reg_self]
  · rw [State.setPc_sp, incSp_sp_toNat, State.setReg_sp, if_neg ha]
  · rw [State.setPc_sp, incSp_sp_toNat, State.setReg_sp, if_pos ha]

/-- Settles O43: CALL is a push of the return address where that is a byte, and raises it where it is none. -/
theorem callPushesTheReturnAddress : Obligations.CallPushesTheReturnAddress := by
  refine ⟨fun a s hm hpc => ?_, fun a s hpc => ⟨_, exec_call_fault s a hpc, onlyFaultSet_raise s _⟩, fun _ => rfl,
    fetchFaultsF1 rfl⟩
  let v := BitVec.ofNat 8 (s.pc + 2)
  have hbyte := (congrArg BitVec.toNat (pushed_read_top v hm)).trans (returnByte_toNat hpc)
  exact ⟨_, exec_call_eq_pushed s a hpc, pushed_sp_toNat s v, hbyte, rfl, decSp_reg_of_ne s, pushed_sp_eq_pushAddr s v,
    pushed_sameMemExcept v hm, pushed_sameRegsExcept s v, rfl, pushed_sameControl s v⟩

/-- Settles O44, from RET's equation; its one byte is always inside memory. -/
theorem retPopsThePc : Obligations.RetPopsThePc :=
  ⟨fun s => ⟨_, exec_ret s, rfl, incSp_sp_toNat s, sameRegsExcept_incSp s, rfl, ⟨rfl, rfl, rfl⟩, fun _ => rfl⟩, rfl,
    fun _ hs => step_of_single_byte hs rfl⟩

/-- Settles O45, from JMP's equation and the fetch faults of its format. -/
theorem jmpGoesToTheRegister : Obligations.JmpGoesToTheRegister :=
  ⟨fun a s => ⟨_, exec_jmp s a, rfl, frame_setPc s _⟩, fun _ => rfl, fetchFaultsF1 rfl⟩

theorem exec_jeq_taken (a : RegIx) {s : State} (h : s.flag = true) : exec (.jeq a) s = .next (s.setPc (s.reg a).toNat) := by
  rw [exec_jeq, if_pos h]

theorem exec_jne_taken (a : RegIx) {s : State} (h : s.flag = false) : exec (.jne a) s = .next (s.setPc (s.reg a).toNat) := by
  rw [exec_jne, if_neg (Bool.eq_false_iff.1 h)]

/-- Settles O46, by the two values of the flag. -/
theorem jeqJumpsOnFlagOne : Obligations.JeqJumpsOnFlagOne := by
  refine ⟨fun a s => ?_, fun _ => rfl, fetchFaultsF1 rfl⟩
  cases hf : s.flag with
  | false => exact ⟨_, exec_jeq_not_taken a hf, nofun, fun _ => rfl, hf ▸ frame_setPc s _⟩
  | true => exact ⟨_, exec_jeq_taken a hf, fun _ => rfl, nofun, hf ▸ frame_setPc s _⟩

/-- Settles O47, by the two values of the flag. -/
theorem jneJumpsOnFlagZero : Obligations.JneJumpsOnFlagZero := by
  refine ⟨fun a s => ?_, fun _ => rfl, fetchFaultsF1 rfl⟩
  cases hf : s.flag with
  | false => exact ⟨_, exec_jne_taken a hf, fun _ => rfl, nofun, hf ▸ frame_setPc s _⟩
  | true => exact ⟨_, exec_jne_not_taken a hf, nofun, fun _ => rfl, hf ▸ frame_setPc s _⟩

/-! Several instructions together -/

/-- Settles O49: a push leaves `pushed`, a pop `incSp`. -/
theorem stackIsFullDescending : Obligations.StackIsFullDescending := by
  refine ⟨fun s v hm => ⟨_, push_eq_pushed s v, pushed_sp_toNat s v, pushed_read_top v hm, ?_, pushed_sameRegsExcept s v, rfl,
    rfl, pushed_sameControl s v⟩, fun s => ⟨_, pop_eq s, incSp_sp_toNat s, rfl, sameRegsExcept_incSp s, rfl, rfl, rfl, rfl, rfl⟩,
    rfl, fun v => ⟨_, push_eq_pushed State.reset v, pushed_read_pushAddr v Memory.wf_nil⟩⟩
  rw [pushed_sp_eq_pushAddr]
  exact pushed_sameMemExcept v hm

/-- The increment of a pop undoes the decrement of a push, also where one of them wraps. -/
theorem sp_restored {s t u : State} (hdec : t.sp.toNat = (s.sp.toNat + 255) % 256)
    (hinc : u.sp.toNat = (t.sp.toNat + 1) % 256) : u.sp = s.sp := by
  have hlt := byte_lt s.sp
  refine BitVec.eq_of_toNat_eq ?_
  omega

/-- Settles O50, from what PUSH and POP do: the pop reads the cell that the push wrote. -/
theorem pushThenPopRestoresTheStackPointer : Obligations.PushThenPopRestoresTheStackPointer := by
  intro a b s t u hm ha hb hpush hpop
  obtain ⟨t', ht, hdec, htop, hreg, -, -, hregs, hpc, -⟩ := pushStoresBelowTheStackPointer.1 a s hm
  cases ht.symm.trans hpush
  obtain ⟨u', hu, hpopped, -, hregs', hpc', -⟩ := popLoadsFromTheStackPointer.1 b t
  cases hu.symm.trans hpop
  obtain ⟨hvalue, hinc⟩ := hpopped hb
  have hsp : u.sp = s.sp := sp_restored hdec hinc
  refine ⟨hvalue.trans (htop.trans (hreg ha)), hsp, fun r hr => ?_, by rw [hpc', hpc]⟩
  by_cases h7 : r = 7
  · rw [h7]
    exact hsp
  · have hr' : r ∉ [b, 7] := by simpa [h7] using hr
    exact (hregs' r hr').trans (hregs r (by simpa using h7))

/-- Settles O51, from what CALL and RET do: RET pops the return address that CALL pushed. -/
theorem retReturnsAfterTheCall : Obligations.RetReturnsAfterTheCall := by
  intro a s t u v hm hpc hcall hsp htop hret
  obtain ⟨t', ht, hdec, hbyte, -⟩ := callPushesTheReturnAddress.1 a s hm hpc
  cases ht.symm.trans hcall
  obtain ⟨v', hv, hvpc, hinc, -⟩ := retPopsThePc.1 u
  cases hv.symm.trans hret
  exact ⟨by rw [hvpc, htop, hbyte], sp_restored (hsp ▸ hdec) hinc⟩

/-- Settles O52: CMP's flag is the equality, by whose two values the jumps go. -/
theorem cmpThenJumpTestsEquality : Obligations.CmpThenJumpTestsEquality := by
  intro a b d s t u v hcmp hjeq hjne
  cases (exec_cmp s a b).symm.trans hcmp
  refine ⟨fun heq => ?_, fun hne => ?_⟩
  · have hflag : (s.reg a == s.reg b) = true := beq_iff_eq.2 heq
    cases (exec_jeq_taken d hflag).symm.trans hjeq
    cases (exec_jne_not_taken d hflag).symm.trans hjne
    exact ⟨rfl, rfl⟩
  · have hflag : (s.reg a == s.reg b) = false := beq_eq_false_iff_ne.2 hne
    cases (exec_jeq_not_taken d hflag).symm.trans hjeq
    cases (exec_jne_taken d hflag).symm.trans hjne
    exact ⟨rfl, rfl⟩

/-- Settles O53: the fetch reads the memory as PUSH or CALL left it. -/
theorem storedByteIsFetchedNext : Obligations.StoredByteIsFetchedNext := by
  intro i s t hm hi h hnone hpc
  obtain ⟨rest, hrest⟩ := fetchBytes_head t (hpc ▸ byte_lt _)
  refine ⟨rest, hpc ▸ hrest, fun a => ⟨fun hpush => ?_, fun hcall => ?_⟩⟩
  · subst hpush
    cases (exec_push_eq_pushed s a).symm.trans h
    exact pushed_read_pushAddr _ hm
  · subst hcall
    by_cases hret : s.pc + 2 ≤ 255
    · cases (exec_call_eq_pushed s a hret).symm.trans h
      exact (congrArg BitVec.toNat (pushed_read_pushAddr _ hm)).trans (returnByte_toNat hret)
    · cases (exec_call_fault s a (Nat.lt_of_not_le hret)).symm.trans h
      cases hnone

/-- Settles O54: neither operation has an error, and byte arithmetic wraps at both ends. -/
theorem stackPointerWrapsWithoutFault : Obligations.StackPointerWrapsWithoutFault := by
  refine ⟨fun s v hm hsp => ⟨_, push_eq_pushed s v, ?_, ?_⟩, fun s hsp => ⟨incSp s, ?_, ?_⟩, fun s v f => ⟨?_, ?_⟩⟩
  · rw [pushed_sp, hsp]
    rfl
  · have haddr : pushAddr s = 0xFF := by
      rw [pushAddr, hsp]
      rfl
    rw [← haddr, pushed_read_pushAddr v hm]
  · rw [pop_eq, hsp]
    rfl
  · rw [incSp_sp, hsp]
    rfl
  · rw [push_eq]
    exact nofun
  · rw [pop_eq]
    exact nofun

end Sys2Proof.Machine

/-! The state, the load and the host's view (R10, R27, R30, R126, R141, R161, R162) -/

namespace Sys2Proof.Machine

/-- Settles O7: each register takes and gives back a byte, and the stack pointer's steps are byte arithmetic. -/
theorem registersHoldAnyByteWithoutAliasing : Obligations.RegistersHoldAnyByteWithoutAliasing := by
  refine ⟨fun s r v => ⟨State.setReg_reg_self s r v, sameRegsExcept_setReg s r v, fun _ => rfl⟩, fun s t addr v h => ?_,
    fun s r => Nat.le_of_lt_succ (byte_lt (s.reg r)), fun s => ⟨incSp_sp_toNat s, decSp_sp_toNat s⟩⟩
  obtain ⟨-, rfl⟩ := memWrite_cases s h
  exact fun r _ => State.setMem_reg s _ r

/-! Memory as a function -/

/-- In canonical form the cells listed are those that do not read as the reset byte. -/
theorem Memory.mem_iff_read {m : Memory} (hm : m.wf) (a : Nat) (v : Byte) : (a, v) ∈ m ↔ m.read a = v ∧ v ≠ 0#8 := by
  induction m with
  | nil => exact iff_of_false List.not_mem_nil fun ⟨hzero, hv⟩ => hv hzero.symm
  | cons c m ih =>
    obtain ⟨b, w⟩ := c
    obtain ⟨hrise, hcells⟩ := hm
    obtain ⟨hfirst, hrise⟩ := List.pairwise_cons.1 hrise
    obtain ⟨⟨-, hw⟩, hcells⟩ := List.forall_mem_cons.1 hcells
    rw [List.mem_cons, Prod.mk.injEq, ih ⟨hrise, hcells⟩, Memory.read]
    by_cases hab : a = b
    · have hbelow : Memory.read m a = 0#8 := Memory.read_below m a fun d hd => hab ▸ hfirst d hd
      rw [if_pos hab, hbelow]
      constructor
      · rintro (⟨-, rfl⟩ | ⟨hzero, hv⟩)
        · exact ⟨rfl, hw⟩
        · exact absurd hzero.symm hv
      · rintro ⟨rfl, -⟩
        exact .inl ⟨hab, rfl⟩
    · rw [if_neg hab, iff_false_intro hab, false_and, false_or]

theorem Memory.wf_nodup {m : Memory} (hm : m.wf) : m.Nodup := hm.1.imp fun hlt heq => hlt.ne (congrArg Prod.fst heq)

theorem Memory.wf_addr {m : Memory} (hm : m.wf) {c : Host.Cell} (hc : c ∈ m) : c.1 ≤ 255 := Nat.le_of_lt_succ (hm.2 c hc).1

/-- Both memories list the cells that do not read as the reset byte, in rising order. -/
theorem Memory.ext_of_wf {m n : Memory} (hm : m.wf) (hn : n.wf) (h : ∀ addr, addr ≤ 255 → m.read addr = n.read addr) :
    m = n := by
  have hmem (c : Host.Cell) : c ∈ m ↔ c ∈ n := by
    refine ⟨fun hc => ?_, fun hc => ?_⟩
    · exact (mem_iff_read hn c.1 c.2).2 (h c.1 (wf_addr hm hc) ▸ (mem_iff_read hm c.1 c.2).1 hc)
    · exact (mem_iff_read hm c.1 c.2).2 (h c.1 (wf_addr hn hc) ▸ (mem_iff_read hn c.1 c.2).1 hc)
  have hperm : m.Perm n := (List.perm_ext_iff_of_nodup (wf_nodup hm) (wf_nodup hn)).2 hmem
  exact hperm.eq_of_pairwise (fun c d _ _ hcd hdc => absurd hcd hdc.asymm) hm.1 hn.1

/-- Settles O9: canonical memories with equal reads list the same cells. -/
theorem canonicalMemoriesAreExtensional : Obligations.CanonicalMemoriesAreExtensional := fun _ _ => Memory.ext_of_wf

/-! Reset and load -/

/-- The writes succeed up to byte 255, and the next one is refused with the address 256. -/
theorem loadFrom_too_long {bs : List Byte} {addr : Nat} (s : State) (haddr : addr ≤ 256) (hlong : 256 < addr + bs.length) :
    loadFrom bs addr s = .error (.outOfBounds .mem 256) := by
  induction bs generalizing addr s with
  | nil => exact absurd hlong (Nat.not_lt_of_le haddr)
  | cons b bs ih =>
    rw [List.length_cons] at hlong
    obtain h | rfl := Nat.lt_or_eq_of_le haddr
    · rw [loadFrom_cons b bs addr s h]
      exact ih _ h (by omega)
    · exact loadFrom_cons_error b bs 256 s le_rfl

theorem load_too_long {image : List Byte} (s : State) (h : 256 < image.length) : load image s = .error (.outOfBounds .mem 256) :=
  loadFrom_too_long s (Nat.zero_le 256) (h.trans_eq (Nat.zero_add _).symm)

/-- Settles O4, by induction on the image from any address on. -/
theorem longImageFailsToLoad : Obligations.LongImageFailsToLoad := fun _ => load_too_long

/-- What boots is reset with the image stored, and nothing else. -/
theorem boot_cases {image : List Byte} {s : State} (h : boot image = .ok s) :
    s = State.reset.setMem (storeBytes image 0 []) := by
  obtain hlen | hlen := Nat.lt_or_ge 256 image.length
  · cases (load_too_long State.reset hlen).symm.trans h
  · cases (loadFrom_eq_setMem State.reset ((Nat.zero_add _).trans_le hlen)).symm.trans h
    rfl

/-- Settles O5: a load that answers has changed memory only, which stays canonical. -/
theorem bootHasInvariant : Obligations.BootHasInvariant := by
  intro image s h
  rw [boot_cases h]
  exact inv_of_no_fault (storeBytes_wf image 0 [] Memory.wf_nil) (Nat.zero_le 256) rfl

theorem reset_reg_of_ne : ∀ {r : RegIx}, r ≠ 7 → State.reset.reg r = 0 := by decide

/-- Settles O1, field by field. -/
theorem resetLeavesTheSpecsValues : Obligations.ResetLeavesTheSpecsValues :=
  ⟨fun _ => reset_reg_of_ne, rfl, rfl, rfl, rfl, rfl, fun _ => rfl, rfl, rfl⟩

/-- Settles O2: reset has the empty memory, `pc` 0 and no record. -/
theorem resetHasInvariant : Obligations.ResetHasInvariant := inv_of_no_fault Memory.wf_nil (Nat.zero_le 256) rfl

/-- Settles O6: the empty image boots to reset itself, whose first byte 0 is no opcode. -/
theorem emptyImageFaultsAtOnce : Obligations.EmptyImageFaultsAtOnce :=
  ⟨State.reset, rfl, stepRaises_unknown rfl (Nat.zero_le 255) opc_ne_zero⟩

/-! The cause codes and the printed text -/

theorem causeCode_eq_zero (r : Option FaultRecord) : causeCode r = 0 ↔ r = none := by
  match r with
  | none => exact iff_of_true rfl rfl
  | some (.unknownInstruction _ _) | some (.outOfBounds .mem _) | some (.outOfBounds .reg _) => exact iff_of_false nofun nofun

/-- Settles O27: the code is 0 exactly without a record, which is when the status is not Faulted. -/
theorem causeCodesNameTheCondition : Obligations.CauseCodesNameTheCondition := by
  refine ⟨fun s => ?_, fun _ _ => ⟨rfl, rfl⟩, fun _ => ⟨rfl, rfl, rfl, rfl⟩⟩
  rw [causeCode_eq_zero, Option.eq_none_iff_forall_ne_some]
  exact forall_congr' fun f => not_congr (State.status_faulted s f).symm

/-- The digits of a number below 1000, as `decimal` writes them. -/
def decimalDigits (n : Nat) : List Nat :=
  if n < 10 then [n] else if n < 100 then [n / 10, n % 10] else [n / 100, n / 10 % 10, n % 10]

theorem decimal_eq_map (v : Byte) : decimal v = (decimalDigits v.toNat).map digitChar := by
  simp only [decimal, decimalDigits]
  split_ifs <;> rfl

/-- The digits are those of base ten, the number reads back from them, and only 0 starts with a 0. -/
theorem decimalDigits_spec {n : Nat} (h : n < 1000) :
    (∀ d ∈ decimalDigits n, d ≤ 9) ∧ (decimalDigits n).foldl (fun k d => 10 * k + d) 0 = n ∧
      ((decimalDigits n).head? = some 0 → n = 0) ∧ decimalDigits n ≠ [] := by
  rw [decimalDigits]
  split_ifs with hone htwo
  · exact ⟨by simp; omega, by simp, by simp, List.cons_ne_nil _ _⟩
  · exact ⟨by simp; omega, by simp; omega, by simp; omega, List.cons_ne_nil _ _⟩
  · exact ⟨by simp; omega, by simp; omega, by simp; omega, List.cons_ne_nil _ _⟩

theorem digitChar_toNat {d : Nat} (h : d ≤ 9) : (digitChar d).toNat = '0'.toNat + d := by
  revert d
  decide

theorem render_append (before : List Byte) (v : Byte) : render (before ++ [v]) = render before ++ decimal v ++ ['\n'] := by
  rw [render, List.flatMap_append, List.flatMap_singleton, renderLine, List.append_assoc]
  rfl

/-- Settles O55: `decimal` writes the digits of the value, and `render` one line after another. -/
theorem renderedLinesReadBack : Obligations.RenderedLinesReadBack := by
  refine ⟨fun v => ?_, fun d => digitChar_toNat, render_append, rfl⟩
  obtain ⟨hdigit, hvalue, hzero, hne⟩ := decimalDigits_spec ((byte_lt v).trans (by decide))
  refine ⟨_, decimal_eq_map v, hdigit, hvalue, fun h => ?_, hne⟩
  rw [hzero h]
  exact ⟨BitVec.eq_of_toNat_eq (hzero h), rfl⟩

end Sys2Proof.Machine
